-- ==== Sys2Proof/Word.lean ====
section
/-! DEFINITION. The two data types the spec computes with: the byte and the unsigned 32-bit word (R12 `WORD_BITS`, R15).
`a + b` on words is addition modulo 2^32 and `a ^^^ b` is exclusive or, as R15 writes them. -/

namespace Sys2Proof

/-- A byte of a key, a nonce, an input or an output (R14, R16). -/
abbrev Byte := BitVec 8

/-- A word: an unsigned integer in [0, 2^32) (R15, R23). -/
abbrev Word := BitVec 32

/-- A context handle, the 4-bit `CTX` field (R55, R57). -/
abbrev Handle := BitVec 4

end Sys2Proof
end

