-- ==== Sys2Proof/Machine/Operands.lean ====
section
/-! DEFINITION. The byte/word conversions of R16 and R41, all little-endian, and the reading and writing of runs of words
of a ChaChaState (R17, R23). The lengths of operands are checked by the meanings (R60, R64). -/

namespace Sys2Proof.Machine

/-- `B[i]` (R14). A string the shape checks let through is long enough wherever the CORE reads it; 0 stands past its
end, where no meaning reads (DESIGN CHOICE, safe, log 15). -/
def byteAt (b : List Byte) (i : Nat) : Byte := b.getD i 0

/-- `le32(B, i) = B[i] + 2^8*B[i+1] + 2^16*B[i+2] + 2^24*B[i+3]` (R16). -/
def le32 (b : List Byte) (i : Nat) : Word :=
  (byteAt b i).setWidth 32 + ((byteAt b (i + 1)).setWidth 32 <<< 8) + ((byteAt b (i + 2)).setWidth 32 <<< 16)
    + ((byteAt b (i + 3)).setWidth 32 <<< 24)

/-- `bytes32(w) = [w[7:0], w[15:8], w[23:16], w[31:24]]` (R16). -/
def bytes32 (w : Word) : List Byte :=
  [w.extractLsb' 0 8, w.extractLsb' 8 8, w.extractLsb' 16 8, w.extractLsb' 24 8]

/-- `words_le(B)` for a string whose length is a multiple of 4 (R16). -/
def wordsLe : List Byte → List Word
  | b0 :: b1 :: b2 :: b3 :: rest => le32 [b0, b1, b2, b3] 0 :: wordsLe rest
  | _ => []

/-- `serialize(W) = bytes32(W[0]) || bytes32(W[1]) || ...` (R16). -/
def serialize (ws : List Word) : List Byte := ws.flatMap bytes32

/-- The four words `le32(K, base + 4*i)`, i in 0..3, of a key half (R67). -/
def keyHalf (k : List Byte) (base : Nat) : List Word :=
  [le32 k base, le32 k (base + 4), le32 k (base + 8), le32 k (base + 12)]

/-- The three words `le32(N, 4*i)`, i in 0..2, of a nonce (R70). -/
def nonceWords (n : List Byte) : List Word := [le32 n 0, le32 n 4, le32 n 8]

/-- `w[i], w[i+1], ... <- ws` (R17). -/
def writeWords (x : Vector Word 16) (i : Nat) : List Word → Vector Word 16
  | [] => x
  | w :: ws => writeWords (x.setIfInBounds i w) (i + 1) ws

end Sys2Proof.Machine
end

