-- ==== Sys2Proof/Syntax.lean ====
section
/-! DEFINITION. The command set: one constructor per row of spec/opcode_table.json (R56), with the operands R58 gives it,
and the transaction a host presents (R54). -/

namespace Sys2Proof

/-- The operand block of a transaction (R54, R58). `KSZ`, `CTR` and `LEN` are carried as values and the key, nonce and
data as byte strings (R42). The strings are lists because a host can present one of the wrong length (R60). -/
inductive OperandBlock where
  | empty
  | keyBlock (ksz : Word) (k : List Byte)
  | ivBlock (n : List Byte) (ctr : Word)
  | dataBlock (len : Word) (din : List Byte)
deriving DecidableEq, Repr

/-- The record `(CW, operands)` a host presents at the command port, whole (R54). -/
structure Transaction where
  cw       : Word
  operands : OperandBlock
deriving DecidableEq, Repr

/-- The four commands (R56), each with its context handle `CTX` and its operands (R58). -/
inductive Instr where
  /-- SETKEY: `KSZ` and the key port `K` (R67). -/
  | setkey (h : Handle) (ksz : Word) (k : List Byte)
  /-- SETIV: the nonce `N` and the initial counter `CTR` (R70). -/
  | setiv (h : Handle) (n : List Byte) (ctr : Word)
  /-- PROCESS: the byte count `LEN` and the input `DIN` (R88). -/
  | process (h : Handle) (len : Word) (din : List Byte)
  /-- GENBLOCK: no operands (R84). -/
  | genblock (h : Handle)
deriving DecidableEq, Repr

/-- The handle a command names (R55, R57). -/
def Instr.handle : Instr → Handle
  | .setkey h _ _ => h
  | .setiv h _ _ => h
  | .process h _ _ => h
  | .genblock h => h

end Sys2Proof
end

