-- ==== Sys2Proof/WellFormed.lean ====
section
/-! DEFINITION. The shape R60 asks of a command's operands: |K| = 32, |N| = 12, |DIN| = LEN, nothing for GENBLOCK. -/

namespace Sys2Proof

/-- R60, the operand shapes. That RSVD is 0 and OP is one of 0x1 to 0x4 holds of every `Instr` by construction. -/
def Instr.wellFormed : Instr → Bool
  | .setkey _ _ k => k.length == 32
  | .setiv _ n _ => n.length == 12
  | .process _ len din => din.length == len.toNat
  | .genblock _ => true

end Sys2Proof
end

