-- ==== Sys2Proof/Decode.lean ====
section
/-! DEFINITION. Command word format C (R55), the opcode map (R56), the operand block OP selects (R58, R59), the decoder of
R64 and the encoder that inverts it (R65: CW = (h << 4) | OP). -/

namespace Sys2Proof

/-- Why a transaction is no command: R61 and R60. -/
inductive DecodeError where
  /-- OP in 0x0, 0x5 to 0xF, or RSVD not 0 (R61). -/
  | reservedEncoding
  /-- An operand block that is not the one OP selects (R58, R60). -/
  | malformedTransaction
deriving DecidableEq, Repr

/-- OP = CW[3:0] (R55). -/
def opField (cw : Word) : BitVec 4 := cw.extractLsb' 0 4

/-- CTX = CW[7:4] (R55). -/
def ctxField (cw : Word) : Handle := cw.extractLsb' 4 4

/-- RSVD = CW[31:8] (R55). -/
def rsvdField (cw : Word) : BitVec 24 := cw.extractLsb' 8 24

/-- R64: the decoder. It refuses a reserved word before it looks at the operands (R103 items 2 and 3), and an operand
block of another opcode's form as malformed (DEDUCED, safe, log 10). The lengths of the byte strings are checked by the
meanings, as R67, R70 and R88 write them. -/
def decode (t : Transaction) : Except DecodeError Instr :=
  if rsvdField t.cw ≠ 0 then .error .reservedEncoding
  else if opField t.cw = 0x1 then
    match t.operands with
    | .keyBlock ksz k => .ok (.setkey (ctxField t.cw) ksz k)
    | _ => .error .malformedTransaction
  else if opField t.cw = 0x2 then
    match t.operands with
    | .ivBlock n ctr => .ok (.setiv (ctxField t.cw) n ctr)
    | _ => .error .malformedTransaction
  else if opField t.cw = 0x3 then
    match t.operands with
    | .dataBlock len din => .ok (.process (ctxField t.cw) len din)
    | _ => .error .malformedTransaction
  else if opField t.cw = 0x4 then
    match t.operands with
    | .empty => .ok (.genblock (ctxField t.cw))
    | _ => .error .malformedTransaction
  else .error .reservedEncoding

/-- CW = (h << 4) | OP with RSVD = 0 (R65, and the encodings of R67, R70, R84, R88). -/
def commandWord (op : Word) (h : Handle) : Word := (h.setWidth 32 <<< 4) ||| op

/-- The transaction of a command: its command word (R56) and its operand block (R58). -/
def encode : Instr → Transaction
  | .setkey h ksz k => ⟨commandWord 0x1 h, .keyBlock ksz k⟩
  | .setiv h n ctr => ⟨commandWord 0x2 h, .ivBlock n ctr⟩
  | .process h len din => ⟨commandWord 0x3 h, .dataBlock len din⟩
  | .genblock h => ⟨commandWord 0x4 h, .empty⟩

/-- R60: a transaction is well formed when its command word is not reserved and its operand block has the shape R58
gives its OP. -/
def transactionWellFormed (t : Transaction) : Bool :=
  rsvdField t.cw == 0 &&
  match t.operands with
  | .keyBlock _ k => opField t.cw == 0x1 && k.length == 32
  | .ivBlock n _ => opField t.cw == 0x2 && n.length == 12
  | .dataBlock len din => opField t.cw == 0x3 && din.length == len.toNat
  | .empty => opField t.cw == 0x4

/-- The operand block of zeros that goes with a command word: of the shape its OP selects (R58), every value and byte 0.
A word with a reserved OP gets none. -/
def zeroOperands (cw : Word) : OperandBlock :=
  if opField cw = 0x1 then .keyBlock 0 (List.replicate 32 0)
  else if opField cw = 0x2 then .ivBlock (List.replicate 12 0) 0
  else if opField cw = 0x3 then .dataBlock 0 []
  else .empty

/-- The transaction whose first `nbits` bits are `w` in the opcode table's numbering and whose operands are zero. -/
def tableTransaction (nbits w : Nat) : Transaction :=
  let cw := BitVec.ofNat 32 (w % 2 ^ nbits)
  ⟨cw, zeroOperands cw⟩

/-- The command the decoder reads from the table's bits; the table's only width is the 32 bits of format C (R55). -/
def decodeTableWord (nbits w : Nat) : Option Instr :=
  if nbits = 32 then
    match decode (tableTransaction nbits w) with
    | .ok i => some i
    | .error _ => none
  else none

end Sys2Proof
end

