-- ==== Sys2Proof/Config.lean ====
section
/-! DEFINITION. What an implementation fixes (R13, R38): the number of context slots and the two constant blocks.
Nothing here changes while the machine runs. -/

namespace Sys2Proof

/-- The two 128-bit constant blocks: `SIGMA` for a 32-byte key and `TAU` for a 16-byte key (R3, R13, R24, R68). -/
structure Constants where
  sigma : Vector Word 4
  tau   : Vector Word 4
deriving DecidableEq, Repr

/-- The configuration of one CORE (R13, R38): `NCTX` and the constant blocks. -/
structure Config where
  nctx      : Nat
  constants : Constants
deriving DecidableEq, Repr

/-- R13: `NCTX` is an integer with 1 <= NCTX <= 15. -/
abbrev Config.Legal (cfg : Config) : Prop := 1 ≤ cfg.nctx ∧ cfg.nctx ≤ 15

/-- PRESUMED (unsafe, log 2): the values R13 and D19 give, which the spec marks [from general knowledge, not in source].
They are the defaults of a parameter: the constants a state holds are its own. -/
def Constants.standard : Constants where
  sigma := #v[0x61707865, 0x3320646e, 0x79622d32, 0x6b206574]
  tau   := #v[0x61707865, 0x3120646e, 0x79622d36, 0x6b206574]

/-- DESIGN CHOICE (unsafe, log 1): the spec leaves `NCTX` OPEN (R13, D5); 2 is the value its examples assume
(95_test_vectors.md). Only `State.reset` uses it: every meaning reads the number of slots off the state. -/
def Config.standard : Config where
  nctx      := 2
  constants := Constants.standard

end Sys2Proof
end

