-- ==== Sys2Proof/Machine/State.lean ====
section
/-! DEFINITION. The state of the CORE (10_state.md), as plain data, and its value at reset (R39, R115). -/

namespace Sys2Proof.Machine

/-- The model faults of R100, a closed list with one member. -/
inductive Fault where
  /-- Raised by GENBLOCK, and by PROCESS with LEN > 0, on a present slot whose KEY_VALID or IV_VALID is 0 (R101), and
  reported again for every later transaction while the mark FAULTED holds it (R31, R64). The spec itself states this stop:
  R84, R88, R103 item 7, D14 and U1 (93_implementation_defined.md). Safe: R100 says the fault errs toward unprovable. -/
  | uninitializedState
deriving DecidableEq, Repr

/-- The refusals of R102, a closed list with two members, and the one the host's interface asks for. -/
inductive Refusal where
  /-- A reserved command word (R61), raised by decoding. Safe: the spec gives it no meaning. -/
  | reservedEncoding
  /-- An operand block of the wrong shape (R60), raised by decoding (its form) and by the meanings (its lengths). Safe:
  the spec gives it no meaning. -/
  | malformedTransaction
  /-- An instruction without a meaning yet; raised by no arm, since all four commands have theirs. Safe. -/
  | notModelled (mnemonic : String)
deriving DecidableEq, Repr

/-- The results a command completes with (R96). -/
inductive StatusCode where
  | ok
  | nullContext
  | invalidKeySize
deriving DecidableEq, Repr

/-- A context slot: one ChaChaState and its two initialization flags (R21, R23, R29). -/
structure Slot where
  /-- `ctx[h].w[0..15]` (R23 to R27). -/
  words    : Vector Word 16
  /-- `ctx[h].KEY_VALID`: words 0 to 11 hold a value (R29). -/
  keyValid : Bool
  /-- `ctx[h].IV_VALID`: words 12 to 15 hold a value (R29). -/
  ivValid  : Bool
deriving DecidableEq, Repr

/-- The response `(STATUS, DOUT)` of a completed command (R54, R63). -/
structure Response where
  status : BitVec 8
  dout   : List Byte
deriving DecidableEq, Repr

/-- What the outside presents to the CORE: a command (R54) or the reset input of the block (R115). -/
inductive PortEvent where
  | command (t : Transaction)
  | reset
deriving DecidableEq, Repr

/-- The state. `slots` has NCTX entries, slot `s` at position `s` (R21). `constants` is configuration carried along
(R38). `port` and `responses` are the model's own form of the command port's two directions (R47, R54; logs 6 and 8). -/
structure State where
  constants : Constants
  slots     : List Slot
  /-- `STATUS` (R30). -/
  status    : BitVec 8
  /-- The sticky mark FAULTED with its reason (R31, R100). -/
  faulted   : Option Fault
  /-- The sticky mark REFUSED with its reason (R31, R102). -/
  refused   : Option Refusal
  /-- What the hosts have presented and the CORE has not taken, in port order (R47). -/
  port      : List PortEvent
  /-- The responses delivered, oldest first (R20, R63). -/
  responses : List Response
deriving DecidableEq, Repr

/-- `NCTX`: how many slots the CORE has (R13, R21). -/
def State.nctx (s : State) : Nat := s.slots.length

/-- A slot after reset (R39): both flags 0. DESIGN CHOICE (unsafe, log 3): the words, which the spec leaves unspecified,
are 0 here; no command reads them before the flags are set (R101). -/
def Slot.reset : Slot where
  words    := Vector.replicate 16 0
  keyValid := false
  ivValid  := false

/-- The CORE right after reset (R39, R115), for every configuration: nothing presented, nothing answered. -/
def State.resetOf (cfg : Config) : State where
  constants := cfg.constants
  slots     := List.replicate cfg.nctx Slot.reset
  status    := 0
  faulted   := none
  refused   := none
  port      := []
  responses := []

/-- The CORE right after reset in the configuration the spec's examples assume (logs 1 and 2). -/
def State.reset : State := State.resetOf Config.standard

end Sys2Proof.Machine
end

