-- ==== Sys2Proof/Machine/Flags.lean ====
section
/-! DEFINITION. Status codes (R30, R96) and the two initialization flags of a slot (R29, R72). The CORE has no condition
codes, carry or overflow flags (R36). -/

namespace Sys2Proof.Machine

/-- The 8-bit code of a result: 0 OK, 1 NULL_CONTEXT, 2 INVALID_KEY_SIZE (R96). -/
def statusByte : StatusCode → BitVec 8
  | .ok => 0
  | .nullContext => 1
  | .invalidKeySize => 2

/-- R72: a slot is ready to produce keystream when both KEY_VALID and IV_VALID are 1. -/
def ready (c : Slot) : Bool := c.keyValid && c.ivValid

/-- What the model's observation shows of word `i` (R37): the word where its flag says it holds a value, KEY_VALID for
words 0 to 11 and IV_VALID for words 12 to 15 (R29), and nothing where it does not (R39). -/
def observedWord (c : Slot) (i : Fin 16) : Option Word :=
  if (if i.val < 12 then c.keyValid else c.ivValid) then some c.words[i] else none

end Sys2Proof.Machine
end

