-- ==== Sys2Proof/Machine/Ops.lean ====
section
/-! DEFINITION. The operations the meanings and the step share: finding and writing a slot (R22, R57), completing a
command with a status code and a response (R30, R63, R96), taking an event from the port (R47, R64), the reset input
(R115) and the sticky marks (R31, R100, R102). There is no trap to enter and none to return from (R104, R105): a
reportable error is a completion whose code is not OK. -/

namespace Sys2Proof.Machine

open Host (Outcome)

/-- `present(h)`: 1 <= h <= NCTX (R57). -/
def present (s : State) (h : Handle) : Bool := decide (1 ≤ h.toNat ∧ h.toNat ≤ s.nctx)

/-- The slot that `h` names, slot `h - 1` (R21, R57), or none where `present(h)` is false. -/
def slotAt (s : State) (h : Handle) : Option Slot :=
  if present s h then s.slots[h.toNat - 1]? else none

/-- Writes the slot that `h` names (R22). -/
def setSlot (h : Handle) (c : Slot) (s : State) : State := { s with slots := s.slots.set (h.toNat - 1) c }

/-- `STATUS <- code; return code`, with `DOUT` the bytes emitted (R30, R45, R63). -/
def complete (code : StatusCode) (dout : List Byte) (s : State) : State :=
  { s with status := statusByte code, responses := s.responses ++ [⟨statusByte code, dout⟩] }

/-- The context check of every command (R57, R96, R103 item 4): a handle that names no slot completes with NULL_CONTEXT
and an empty `DOUT`, and changes no slot (R97). -/
def onSlot (h : Handle) (s : State) (body : Slot → Outcome State Fault Refusal) : Outcome State Fault Refusal :=
  match slotAt s h with
  | none => .next (complete .nullContext [] s)
  | some c => body c

/-- The reset input (R115): every piece of state to its value in R39. The configuration stays (R38), and so do what is
still to be taken from the port and what has been delivered, which are the hosts' (logs 8 and 12). -/
def applyReset (s : State) : State :=
  { State.resetOf ⟨s.nctx, s.constants⟩ with port := s.port, responses := s.responses }

/-- How a transaction that is no command is refused (R60, R61, R102). -/
def refusalOf : DecodeError → Refusal
  | .reservedEncoding => .reservedEncoding
  | .malformedTransaction => .malformedTransaction

/-- What the port gives a step: a decided outcome, or a command to execute in the state it has been taken from. -/
inductive Taken where
  | decided (o : Outcome State Fault Refusal)
  | command (i : Instr) (s : State)

/-- The part of R64 before the dispatch. A reset request is applied whatever the marks are (R115, log 5); a transaction
is not executed while a mark is set (R103 item 1), and its command word is decoded before anything else (R103 items 2
and 3). With nothing presented nothing happens (DESIGN CHOICE, safe, log 7). -/
def takeEvent (s : State) : Taken :=
  match s.port with
  | [] => .decided (.next s)
  | .reset :: rest => .decided (.next (applyReset { s with port := rest }))
  | .command t :: rest =>
    match s.faulted, s.refused with
    | some r, _ => .decided (.fault r)
    | none, some r => .decided (.refused r)
    | none, none =>
      match decode t with
      | .error e => .decided (.refused (refusalOf e))
      | .ok i => .command i { s with port := rest }

/-- The state an outcome leaves (R31, R100, R102): a fault or a refusal sets its mark and changes nothing else, and the
transaction it ended leaves the port (DESIGN CHOICE, safe, log 13). -/
def settle (s : State) : Outcome State Fault Refusal → State
  | .next t => t
  | .fault r => { s with faulted := some r, port := s.port.tail }
  | .refused r => { s with refused := some r, port := s.port.tail }

/-- The table's transaction placed where the step takes its next event, with no mark set (log 9). -/
def placeTableWord (s : State) (nbits w : Nat) : State :=
  { s with faulted := none, refused := none, port := .command (tableTransaction nbits w) :: s.port }

end Sys2Proof.Machine
end

