-- ==== Sys2Proof/Machine/StateInit.lean ====
section
/-! DEFINITION. The state initializer (40_state_init.md): SETKEY (R67) and SETIV (R70). -/

namespace Sys2Proof.Machine

open Host (Outcome)

/-- The writes of an OK SETKEY (R67): words 4 to 7 from the first 16 key bytes; words 8 to 11 from the last 16 with
`SIGMA` for a 32-byte key, or words 4 to 7 again with `TAU` for a 16-byte key; KEY_VALID. -/
def loadKey (consts : Constants) (ksz : Word) (k : List Byte) (c : Slot) : Slot :=
  let x := writeWords c.words 4 (keyHalf k 0)
  let x :=
    if ksz = 32 then writeWords (writeWords x 8 (keyHalf k 16)) 0 consts.sigma.toList
    else writeWords (writeWords x 8 (keyHalf k 0)) 0 consts.tau.toList
  { c with words := x, keyValid := true }

/-- The writes of an OK SETIV (R70): word 12 from `CTR`, words 13 to 15 from the nonce; IV_VALID. -/
def loadIv (n : List Byte) (ctr : Word) (c : Slot) : Slot :=
  { c with words := writeWords (writeWords c.words 12 [ctr]) 13 (nonceWords n), ivValid := true }

/-- SETKEY (R67). -/
def execSetkey (h : Handle) (ksz : Word) (k : List Byte) (s : State) : Outcome State Fault Refusal :=
  if k.length ≠ 32 then .refused .malformedTransaction
  else onSlot h s fun c =>
    if ksz ≠ 16 ∧ ksz ≠ 32 then .next (complete .invalidKeySize [] s)
    else .next (complete .ok [] (setSlot h (loadKey s.constants ksz k c) s))

/-- SETIV (R70). -/
def execSetiv (h : Handle) (n : List Byte) (ctr : Word) (s : State) : Outcome State Fault Refusal :=
  if n.length ≠ 12 then .refused .malformedTransaction
  else onSlot h s fun c => .next (complete .ok [] (setSlot h (loadIv n ctr c) s))

end Sys2Proof.Machine
end

