-- ==== Sys2Proof/Machine/BlockTransform.lean ====
section
/-! DEFINITION. The block permutation engine (41_block_transform.md): a pure function from 16 words to 64 bytes (R81). -/

namespace Sys2Proof.Machine

/-- `rotl32(v, n) = (v << n) | (v >> (32 - n))` (R15, R73). -/
def rotl32 (v : Word) (n : Nat) : Word := (v <<< n) ||| (v >>> (32 - n))

/-- One line of R74: `x[p] <- x[p] + x[q]; x[r] <- x[r] ^ x[p]; x[r] <- rotl32(x[r], n)`. -/
def quarterLine (x : Vector Word 16) (p q r : Fin 16) (n : Nat) : Vector Word 16 :=
  let x := x.set p (x[p] + x[q])
  x.set r (rotl32 (x[r] ^^^ x[p]) n)

/-- The quarter round `QR(a, b, c, d)`, line by line (R74). -/
def quarterRound (x : Vector Word 16) (a b c d : Fin 16) : Vector Word 16 :=
  let x := quarterLine x a b d 16
  let x := quarterLine x c d b 12
  let x := quarterLine x a b d 8
  quarterLine x c d b 7

/-- The groups of the column pass, in order (R75). -/
def columnGroups : List (Fin 16 × Fin 16 × Fin 16 × Fin 16) :=
  [(0, 4, 8, 12), (1, 5, 9, 13), (2, 6, 10, 14), (3, 7, 11, 15)]

/-- The groups of the diagonal pass, in order (R76). -/
def diagonalGroups : List (Fin 16 × Fin 16 × Fin 16 × Fin 16) :=
  [(0, 5, 10, 15), (1, 6, 11, 12), (2, 7, 8, 13), (3, 4, 9, 14)]

/-- A pass: the quarter round on each group, one after the other (R75, R76). -/
def quarterPass (x : Vector Word 16) : List (Fin 16 × Fin 16 × Fin 16 × Fin 16) → Vector Word 16
  | [] => x
  | (a, b, c, d) :: gs => quarterPass (quarterRound x a b c d) gs

/-- `DOUBLEROUND: COLUMNS; DIAGONALS` (R78). -/
def doubleRound (x : Vector Word 16) : Vector Word 16 := quarterPass (quarterPass x columnGroups) diagonalGroups

/-- `n` double rounds on the working copy (R79, R80). -/
def doubleRounds : Nat → Vector Word 16 → Vector Word 16
  | 0, x => x
  | n + 1, x => doubleRounds n (doubleRound x)

/-- The output words before serialisation: ten double rounds on a copy, then `x[i] <- x[i] + s[i]` (R79, R80). -/
def blockWords (s : Vector Word 16) : Vector Word 16 := Vector.zipWith (· + ·) (doubleRounds 10 s) s

/-- `BlockTransform(s)`: the 64-byte keystream block (R80). -/
def blockTransform (s : Vector Word 16) : List Byte := serialize (blockWords s).toList

end Sys2Proof.Machine
end

