-- ==== Sys2Proof/Machine/StreamGenerator.lean ====
section
/-! DEFINITION. The counter-mode block sequencer (42_stream_generator.md) and GENBLOCK (R84). -/

namespace Sys2Proof.Machine

open Host (Outcome)

/-- `w[12] <- w[12] + 1`, modulo 2^32, without error (R26, R83). -/
def advanceCounter (c : Slot) : Slot := { c with words := c.words.set 12 (c.words[12] + 1) }

/-- `GenerateBlock(h)`: the block at the counter value from before the increment (R83). -/
def generateBlock (c : Slot) : List Byte × Slot := (blockTransform c.words, advanceCounter c)

/-- GENBLOCK (R84). The fault is the rule's own outcome: `raise Fault(UNINITIALIZED_STATE)` (R84, R101, R103 item 7), which
93_implementation_defined.md U1 settles as `fault`. -/
def execGenblock (h : Handle) (s : State) : Outcome State Fault Refusal :=
  onSlot h s fun c =>
    if ready c then
      let (ks, c') := generateBlock c
      .next (complete .ok ks (setSlot h c' s))
    else .fault .uninitializedState

end Sys2Proof.Machine
end

