-- ==== Sys2Proof/Machine/XorCombiner.lean ====
section
/-! DEFINITION. The keystream-XOR combiner and PROCESS (43_xor_combiner.md). -/

namespace Sys2Proof.Machine

open Host (Outcome)

/-- `ceil(LEN / 64)` (R18, R91): how many blocks a PROCESS of LEN bytes uses. -/
def blockCount (len : Word) : Nat := (len.toNat + 63) / 64

/-- `emit(DIN[off + j] ^ KS[j])` for j in 0..n-1: as many bytes as the input has, and the rest of the block is discarded
(R88, R90). -/
def xorBytes (din ks : List Byte) : List Byte := List.zipWith (· ^^^ ·) din ks

/-- The loop of R88 over `n` blocks: one `GenerateBlock`, up to 64 bytes combined, then the remaining input. -/
def combineBlocks : Nat → List Byte → Slot → List Byte × Slot
  | 0, _, c => ([], c)
  | n + 1, din, c =>
    let (ks, c') := generateBlock c
    let (dout, c'') := combineBlocks n (din.drop 64) c'
    (xorBytes (din.take 64) ks ++ dout, c'')

/-- PROCESS (R88, R89). The fault is the rule's own outcome: `raise Fault(UNINITIALIZED_STATE)` (R88, R101, R103 item 7),
which 93_implementation_defined.md U1 settles as `fault`. -/
def execProcess (h : Handle) (len : Word) (din : List Byte) (s : State) : Outcome State Fault Refusal :=
  if din.length ≠ len.toNat then .refused .malformedTransaction
  else onSlot h s fun c =>
    if len = 0 then .next (complete .ok [] s)
    else if ready c then
      let (dout, c') := combineBlocks (blockCount len) din c
      .next (complete .ok dout (setSlot h c' s))
    else .fault .uninitializedState

end Sys2Proof.Machine
end

