-- ==== Sys2Proof/Machine/Dispatch.lean ====
section
/-! DEFINITION. The dispatch of R64: one arm per command, each a call of its meaning. -/

namespace Sys2Proof.Machine

open Host (Outcome)

def exec (i : Instr) (s : State) : Host.Outcome State Fault Refusal :=
  match i with
  | .setkey h ksz k => Sys2Proof.Machine.execSetkey h ksz k s
  | .setiv h n ctr => Sys2Proof.Machine.execSetiv h n ctr s
  | .process h len din => Sys2Proof.Machine.execProcess h len din s
  | .genblock h => Sys2Proof.Machine.execGenblock h s

end Sys2Proof.Machine
end

