-- ==== Sys2Proof/Machine/Step.lean ====
section
/-! DEFINITION. One step executes one transaction (R64). -/

namespace Sys2Proof.Machine

/-- R64: what stands first at the port is taken, and a command is dispatched to its meaning. -/
def step (s : State) : Host.Outcome State Fault Refusal :=
  match takeEvent s with
  | .decided o => o
  | .command i t => exec i t

/-- The step as a function on states, with the sticky marks of R31 set where it faults or refuses (R100, R102). -/
def advance (s : State) : State := settle s (step s)

/-- The table's word placed where `step` takes its next transaction (log 9). -/
def State.withFetchWord (s : State) (nbits w : Nat) : State := placeTableWord s nbits w

end Sys2Proof.Machine
end

