-- ==== Sys2Proof/Machine/Assembler.lean ====
section
/-! DEFINITION. The text form of command sequences (R65): every line is exactly one transaction, and there are no
pseudo-commands (R66). A line that is not of the form R65 gives assembles to nothing. What the model reads where R65 leaves the form open is logs 4 and 17. -/

namespace Sys2Proof.Machine

/-- Drops the blanks in front. -/
def skipBlanks : List Char → List Char
  | ' ' :: cs => skipBlanks cs
  | cs => cs

/-- Drops the blanks in front and behind. -/
def trimBlanks (cs : List Char) : List Char := (skipBlanks (skipBlanks cs).reverse).reverse

/-- The text up to the first `sep`, and the text after it. -/
def splitAtChar (sep : Char) : List Char → Option (List Char × List Char)
  | [] => none
  | c :: cs => if c = sep then some ([], cs) else (splitAtChar sep cs).map fun p => (c :: p.1, p.2)

/-- The value of a hexadecimal digit. -/
def hexDigit? (c : Char) : Option Nat :=
  if '0' ≤ c ∧ c ≤ '9' then some (c.toNat - 48)
  else if 'a' ≤ c ∧ c ≤ 'f' then some (c.toNat - 87)
  else if 'A' ≤ c ∧ c ≤ 'F' then some (c.toNat - 55)
  else none

/-- Digits in a base, most significant first, after what has been read. -/
def digitsFrom (base : Nat) (acc : Nat) : List Char → Option Nat
  | [] => some acc
  | c :: cs =>
    match hexDigit? c with
    | some d => if d < base then digitsFrom base (acc * base + d) cs else none
    | none => none

/-- An unsigned number in decimal. DESIGN CHOICE (safe, log 4): leading zeros are read, so `c01` is `c1`. -/
def decimal? (cs : List Char) : Option Nat := if cs = [] then none else digitsFrom 10 0 cs

/-- `<ksz>` and `<ctr>`: an unsigned 32-bit number in decimal or `0x` hexadecimal (R65). DESIGN CHOICE (safe, log 4):
leading zeros are read after `0x` too, and `0X` is not. -/
def number? (cs : List Char) : Option Word :=
  let v := match cs with
    | '0' :: 'x' :: ds => if ds = [] then none else digitsFrom 16 0 ds
    | ds => decimal? ds
  v.bind fun n => if n < 2 ^ 32 then some (BitVec.ofNat 32 n) else none

/-- `c<h>`: a handle, decimal 0 to 15 (R65; leading zeros as in `decimal?`, log 4). -/
def handle? : List Char → Option Handle
  | 'c' :: ds => (decimal? ds).bind fun n => if n < 16 then some (BitVec.ofNat 4 n) else none
  | _ => none

/-- Two hexadecimal digits per byte, first byte first. -/
def hexPairs? : List Char → Option (List Byte)
  | [] => some []
  | a :: b :: cs =>
    match hexDigit? a, hexDigit? b, hexPairs? cs with
    | some x, some y, some bs => some (BitVec.ofNat 8 (16 * x + y) :: bs)
    | _, _, _ => none
  | _ => none

/-- The text between `front` and `back`, where the whole text has that form. -/
def between? (front back cs : List Char) : Option (List Char) :=
  let mid := cs.drop front.length
  let n := mid.length - back.length
  if cs = front ++ mid.take n ++ back then some (mid.take n) else none

/-- `<hexbytes>`: an even count of hexadecimal digits, or `zeros(<n>)` (R65). DESIGN CHOICE (safe, log 4): the `<n>` of
`zeros(<n>)`, whose base R65 does not state, is read in decimal only, with no `0x` form. -/
def hexBytes? (cs : List Char) : Option (List Byte) :=
  match between? ['z', 'e', 'r', 'o', 's', '('] [')'] cs with
  | some n => (decimal? n).map fun n => List.replicate n 0
  | none => if cs = [] then none else hexPairs? cs

/-- The double quote, by its code. -/
def quoteChar : Char := Char.ofNat 34

/-- The bytes of a text of ASCII characters. -/
def asciiBytes? (cs : List Char) : Option (List Byte) :=
  if cs.all (fun c => decide (c.toNat < 128)) then some (cs.map fun c => BitVec.ofNat 8 c.toNat) else none

/-- `<data>`: `<hexbytes>`, the empty string written as two quotes, or `ascii("<text>")` (R65). -/
def data? (cs : List Char) : Option (List Byte) :=
  if cs = [quoteChar, quoteChar] then some []
  else match between? ['a', 's', 'c', 'i', 'i', '(', quoteChar] [quoteChar, ')'] cs with
    | some text => asciiBytes? text
    | none => hexBytes? cs

/-- `setkey c<h>, <ksz>, <hexbytes>` after its mnemonic: n <= 32 bytes, and the assembler fills `K[n..31]` with 0x00. -/
def assembleSetkey (cs : List Char) : Option Instr := do
  let (h, rest) ← splitAtChar ',' cs
  let (ksz, bytes) ← splitAtChar ',' rest
  let h ← handle? (trimBlanks h)
  let ksz ← number? (trimBlanks ksz)
  let k ← hexBytes? (trimBlanks bytes)
  if k.length ≤ 32 then some (.setkey h ksz (k ++ List.replicate (32 - k.length) 0)) else none

/-- `setiv c<h>, <hexbytes>, <ctr>` after its mnemonic: exactly 12 bytes. -/
def assembleSetiv (cs : List Char) : Option Instr := do
  let (h, rest) ← splitAtChar ',' cs
  let (bytes, ctr) ← splitAtChar ',' rest
  let h ← handle? (trimBlanks h)
  let n ← hexBytes? (trimBlanks bytes)
  let ctr ← number? (trimBlanks ctr)
  if n.length = 12 then some (.setiv h n ctr) else none

/-- `process c<h>, <data>` after its mnemonic: `DIN` is the data and `LEN = |DIN|`. -/
def assembleProcess (cs : List Char) : Option Instr := do
  let (h, data) ← splitAtChar ',' cs
  let h ← handle? (trimBlanks h)
  let din ← data? (trimBlanks data)
  if din.length < 2 ^ 32 then some (.process h (BitVec.ofNat 32 din.length) din) else none

/-- `genblock c<h>` after its mnemonic. -/
def assembleGenblock (cs : List Char) : Option Instr := (handle? (trimBlanks cs)).map Instr.genblock

/-- A line of the text form, as the command it stands for (R65). -/
def assembleChars (cs : List Char) : Option Instr := do
  let (mnemonic, operands) ← splitAtChar ' ' (trimBlanks cs)
  if mnemonic = ['s', 'e', 't', 'k', 'e', 'y'] then assembleSetkey operands
  else if mnemonic = ['s', 'e', 't', 'i', 'v'] then assembleSetiv operands
  else if mnemonic = ['p', 'r', 'o', 'c', 'e', 's', 's'] then assembleProcess operands
  else if mnemonic = ['g', 'e', 'n', 'b', 'l', 'o', 'c', 'k'] then assembleGenblock operands
  else none

/-- A line of the text form, as the one transaction it is (R65, R66). -/
def assembleLine (line : String) : Option Transaction := (assembleChars line.toList).map encode

/-- A program: one transaction a line (R66). -/
def assembleProgram : List String → Option (List Transaction)
  | [] => some []
  | l :: ls =>
    match assembleLine l, assembleProgram ls with
    | some t, some ts => some (t :: ts)
    | _, _ => none

end Sys2Proof.Machine
end

