-- ==== Sys2Proof/Machine/TextForm.lean ====
section
/-! DEFINITION. The lines that R65 gives for a command, written out: what a claim about the text form is stated in. One
blank stands where R65's examples show one, numbers carry no leading zeros and hexadecimal digits are small letters; what
else the assembler reads is said in logs 4 and 17. -/

namespace Sys2Proof.Machine

/-- The digit of a value below 16. -/
def digitChar (d : Nat) : Char := if d < 10 then Char.ofNat (48 + d) else Char.ofNat (87 + d)

/-- A number in a base, most significant digit first, in at most as many digits as the first argument. -/
def digitsText (base : Nat) : Nat → Nat → List Char
  | 0, _ => []
  | k + 1, n => if n < base then [digitChar n] else digitsText base k (n / base) ++ [digitChar (n % base)]

/-- An unsigned number in decimal. -/
def decimalText (n : Nat) : List Char := digitsText 10 (n + 1) n

/-- `c<h>` (R65). -/
def handleText (h : Handle) : List Char := 'c' :: decimalText h.toNat

/-- Two hexadecimal digits per byte, first byte first (R65). -/
def hexBytesText (b : List Byte) : List Char :=
  b.flatMap fun x => [digitChar (x.toNat / 16), digitChar (x.toNat % 16)]

/-- `zeros(<n>)` (R65). -/
def zerosText (n : Nat) : List Char := ['z', 'e', 'r', 'o', 's', '('] ++ decimalText n ++ [')']

/-- `ascii("<text>")` for bytes below 128 (R65); 34 is the code of the double quote. -/
def asciiText (b : List Byte) : List Char :=
  ['a', 's', 'c', 'i', 'i', '(', Char.ofNat 34] ++ b.map (fun x => Char.ofNat x.toNat) ++ [Char.ofNat 34, ')']

/-- `<ksz>` and `<ctr>`: decimal, or hexadecimal after `0x` (R65). -/
def numberForms (v : Word) : List (List Char) :=
  [decimalText v.toNat, '0' :: 'x' :: digitsText 16 (v.toNat + 1) v.toNat]

/-- `<hexbytes>`: digits, or `zeros(<n>)` where every byte is 0x00 (R65). -/
def bytesForms (b : List Byte) : List (List Char) :=
  (if b = [] then [] else [hexBytesText b]) ++
  (if b = List.replicate b.length 0 then [zerosText b.length] else [])

/-- `<data>`: `<hexbytes>`, two quotes for no bytes, or `ascii` where every byte is below 128 (R65). -/
def dataForms (b : List Byte) : List (List Char) :=
  bytesForms b ++ (if b = [] then [[Char.ofNat 34, Char.ofNat 34]] else []) ++
  (if b.all (fun x => decide (x.toNat < 128)) then [asciiText b] else [])

/-- The key bytes a setkey line may write for a key port: the first `n`, where the rest is 0x00 (R65). -/
def keyPrefixes (k : List Byte) : List (List Byte) :=
  (List.range 33).filterMap fun n => if k = k.take n ++ List.replicate (32 - n) 0 then some (k.take n) else none

/-- The lines of R65's four forms that stand for a command. -/
def linesOf : Instr → List (List Char)
  | .setkey h ksz k =>
    (numberForms ksz).flatMap fun z => (keyPrefixes k).flatMap fun p => (bytesForms p).map fun b =>
      ['s', 'e', 't', 'k', 'e', 'y', ' '] ++ handleText h ++ [',', ' '] ++ z ++ [',', ' '] ++ b
  | .setiv h n ctr =>
    (numberForms ctr).flatMap fun z => (bytesForms n).map fun b =>
      ['s', 'e', 't', 'i', 'v', ' '] ++ handleText h ++ [',', ' '] ++ b ++ [',', ' '] ++ z
  | .process h _ din =>
    (dataForms din).map fun d => ['p', 'r', 'o', 'c', 'e', 's', 's', ' '] ++ handleText h ++ [',', ' '] ++ d
  | .genblock h => [['g', 'e', 'n', 'b', 'l', 'o', 'c', 'k', ' '] ++ handleText h]

end Sys2Proof.Machine
end

