-- ==== Sys2Proof/Safety.lean ====
section
/-! DEFINITION. The terms claims are written in: good states (R31), the invariant of the machine, what a completed command
leaves alone (R22, R28), the closed form of the keystream (R92) and runs of commands (R20, R47). -/

namespace Sys2Proof.Machine

open Host (Outcome)

/-- No mark is set: only then can a state be a good end of a run (R31, R100). -/
abbrev State.Good (s : State) : Prop := s.faulted = none ∧ s.refused = none

/-- Word `i` of a ChaChaState (R23), for i in 0..15. -/
def wordAt (x : Vector Word 16) (i : Nat) : Word := x.toList.getD i 0

/-- R24 and R25: a keyed slot holds `SIGMA`, or it holds `TAU` and its words 8 to 11 repeat words 4 to 7. -/
abbrev KeySound (consts : Constants) (c : Slot) : Prop :=
  c.keyValid = true →
    c.words.toList.take 4 = consts.sigma.toList ∨
    (c.words.toList.take 4 = consts.tau.toList ∧
      (c.words.toList.drop 8).take 4 = (c.words.toList.drop 4).take 4)

/-- R30 and R97: a response holds one of the three status codes, and only an OK one has data. -/
abbrev ResponseSound (r : Response) : Prop :=
  r.status = 0 ∨ ((r.status = 1 ∨ r.status = 2) ∧ r.dout = [])

/-- The invariant every step keeps: NCTX is in its range (R13), STATUS is one of its three values (R30), every keyed slot
has a constant block (R24, R25), every response is sound (R30, R97). -/
abbrev StateInv (s : State) : Prop :=
  (1 ≤ s.slots.length ∧ s.slots.length ≤ 15) ∧
  (s.status = 0 ∨ s.status = 1 ∨ s.status = 2) ∧
  (∀ c ∈ s.slots, KeySound s.constants c) ∧
  (∀ r ∈ s.responses, ResponseSound r)

/-- What every command that completes on handle `h` does and leaves alone: STATUS and one response carry its code (R30,
R63), and the configuration (R38), the marks (R31), the port and every other slot (R22) are unchanged. -/
abbrev CompletedWith (s t : State) (h : Handle) (code : BitVec 8) (dout : List Byte) : Prop :=
  t.status = code ∧ t.responses = s.responses ++ [⟨code, dout⟩] ∧ t.constants = s.constants ∧ t.nctx = s.nctx ∧
  t.faulted = s.faulted ∧ t.refused = s.refused ∧ t.port = s.port ∧ ∀ h', h' ≠ h → slotAt t h' = slotAt s h'

/-- A slot `n` blocks further on: word 12 is `(c0 + n) mod 2^32` and nothing else changes (R85, R92). -/
def slotAfter (n : Nat) (c : Slot) : Slot :=
  { c with words := c.words.set 12 (c.words[12] + BitVec.ofNat 32 n) }

/-- Keystream byte `i` counted from the slot's counter: byte `i mod 64` of the block at `(c0 + floor(i / 64)) mod 2^32`
(R92). -/
def keystreamByte (c : Slot) (i : Nat) : Byte := byteAt (blockTransform (slotAfter (i / 64) c).words) (i % 64)

/-- The closed form of PROCESS (R92): output byte `i` is input byte `i` XOR keystream byte `i`. -/
def keystreamXor (c : Slot) (din : List Byte) : List Byte :=
  (List.range din.length).map fun i => byteAt din i ^^^ keystreamByte c i

/-- A run of commands, one after the other, that stops at the first fault or refusal (R20, R47). -/
def runCommands : List Instr → State → Outcome State Fault Refusal
  | [], s => .next s
  | i :: is, s =>
    match exec i s with
    | .next t => runCommands is t
    | .fault r => .fault r
    | .refused r => .refused r

/-- The input a keystream command combines with its blocks: `DIN`, or 64 zero bytes for GENBLOCK (R84). -/
def keystreamInput : Instr → List Byte
  | .process _ _ din => din
  | .genblock _ => List.replicate 64 0
  | .setkey _ _ _ => []
  | .setiv _ _ _ => []

/-- How many blocks an input of that many bytes uses (R91). -/
def blocksOf (din : List Byte) : Nat := (din.length + 63) / 64

/-- The commands of R85 on handle `h`: GENBLOCK, and PROCESS with a well-formed operand block. -/
def isKeystreamCommand (h : Handle) : Instr → Bool
  | .process h' len din => h' == h && din.length == len.toNat
  | .genblock h' => h' == h
  | .setkey _ _ _ => false
  | .setiv _ _ _ => false

/-- The responses R85 and R119 give a run of keystream commands on a slot: each starts at the block after those the
earlier ones used. -/
def keystreamResponses (c : Slot) : List Instr → List Response
  | [] => []
  | i :: is => ⟨0, keystreamXor c (keystreamInput i)⟩ :: keystreamResponses (slotAfter (blocksOf (keystreamInput i)) c) is

/-- The blocks a run of keystream commands uses (R85). -/
def blocksUsed : List Instr → Nat
  | [] => 0
  | i :: is => blocksOf (keystreamInput i) + blocksUsed is

end Sys2Proof.Machine
end

