-- ==== Sys2Proof/Certificates/Slice0/Obligations.lean ====
section
/-! DEFINITION. The statements for the provers, in the order of the spec's files. Each docstring names the rule or the
section it formalises. -/

open Sys2Proof Sys2Proof.Machine

/-! ### Primitives (R15, R16, R73) -/

/-- R16: `le32`, `bytes32`, `words_le` and `serialize`, each by its own equation. -/
def Obligations.ConversionsAreLittleEndian : Prop :=
  (∀ (b : List Byte) (i : Nat), i + 3 < b.length →
    (le32 b i).toNat = (b.getD i 0).toNat + 2 ^ 8 * (b.getD (i + 1) 0).toNat + 2 ^ 16 * (b.getD (i + 2) 0).toNat
      + 2 ^ 24 * (b.getD (i + 3) 0).toNat) ∧
  (∀ w : Word, (bytes32 w).map BitVec.toNat =
    [w.toNat % 2 ^ 8, w.toNat / 2 ^ 8 % 2 ^ 8, w.toNat / 2 ^ 16 % 2 ^ 8, w.toNat / 2 ^ 24]) ∧
  (∀ (b : List Byte) (n : Nat), b.length = 4 * n → wordsLe b = (List.range n).map fun j => le32 b (4 * j)) ∧
  (∀ ws vs : List Word, serialize [] = [] ∧ serialize (ws ++ vs) = serialize ws ++ serialize vs ∧
    ∀ w, serialize [w] = bytes32 w)

/-- R16, R41: reading back what was serialised gives the words again, and serialising what was read the bytes. -/
def Obligations.SerializeAndWordsLeAreInverse : Prop :=
  (∀ ws : List Word, wordsLe (serialize ws) = ws) ∧
  (∀ (b : List Byte) (n : Nat), b.length = 4 * n → serialize (wordsLe b) = b)

/-- R73: bit `i` of `rotl32(v, n)` is bit `(i - n) mod 32` of `v`, and `+` is addition modulo 2^32. -/
def Obligations.WordOperationsFollowTheirLaws : Prop :=
  (∀ (v : Word) (n i : Nat), n = 16 ∨ n = 12 ∨ n = 8 ∨ n = 7 → i < 32 →
    (rotl32 v n).getLsbD i = v.getLsbD ((i + 32 - n) % 32)) ∧
  (∀ a b : Word, (a + b).toNat = (a.toNat + b.toNat) % 2 ^ 32)

/-! ### Reset and configuration (R13, R38, R39, R115) -/

/-- R39: after reset no word of any slot holds a value, both flags of every slot are 0, STATUS is 0 and no mark is set;
there are NCTX slots (R21). The rule's `unspecified` words are read through the model's observation (R37), so nothing
here rests on the value log 3 names. -/
def Obligations.ResetLeavesNoValueAndClearsFlags : Prop :=
  ∀ cfg : Config,
    (State.resetOf cfg).nctx = cfg.nctx ∧ (State.resetOf cfg).constants = cfg.constants ∧
    (∀ c ∈ (State.resetOf cfg).slots, c.keyValid = false ∧ c.ivValid = false ∧ ∀ i, observedWord c i = none) ∧
    (State.resetOf cfg).status = 0 ∧ (State.resetOf cfg).faulted = none ∧ (State.resetOf cfg).refused = none

/-- R115, with logs 5 and 12 for the marks and for the port and responses, which are the model's own: the reset input,
whatever the marks are, clears every slot's flags, STATUS and the marks, and no word holds a value any more. -/
def Obligations.ResetInputClearsEverySlot : Prop :=
  ∀ (s : State) (rest : List PortEvent), s.port = .reset :: rest →
    ∃ t, step s = .next t ∧ advance s = t ∧ t.nctx = s.nctx ∧ t.constants = s.constants ∧
      (∀ c ∈ t.slots, c.keyValid = false ∧ c.ivValid = false ∧ ∀ i, observedWord c i = none) ∧
      t.status = 0 ∧ t.faulted = none ∧ t.refused = none ∧ t.port = rest ∧ t.responses = s.responses

/-- R38: no command, and nothing else a step does, changes NCTX, SIGMA or TAU. -/
def Obligations.ConfigurationNeverChanges : Prop :=
  (∀ (i : Instr) (s t : State), exec i s = .next t → t.nctx = s.nctx ∧ t.constants = s.constants) ∧
  (∀ s : State, (advance s).nctx = s.nctx ∧ (advance s).constants = s.constants)

/-! ### Command encoding (R55 to R64) -/

/-- R56, R58, R59, R65: decoding the transaction of a well-formed command gives the command back, every operand at every
value, and the transaction is well formed (R60). -/
def Obligations.DecodeOfEncodeIsTheCommand : Prop :=
  ∀ i : Instr, i.wellFormed = true → decode (encode i) = .ok i ∧ transactionWellFormed (encode i) = true

/-- R62, R56: each transaction stands for one command: what decodes to a command is that command's transaction. -/
def Obligations.EncodeOfDecodeIsTheTransaction : Prop :=
  ∀ (t : Transaction) (i : Instr), decode t = .ok i → encode i = t

/-- R56: the match and mask of each row, with CTX free, and that every other word is reserved. -/
def Obligations.CommandWordsMatchTheirTableRows : Prop :=
  ∀ cw : Word,
    (∀ ksz k, decode ⟨cw, .keyBlock ksz k⟩ = .ok (.setkey (ctxField cw) ksz k) ↔ cw &&& 0xFFFFFF0F = 0x00000001) ∧
    (∀ n ctr, decode ⟨cw, .ivBlock n ctr⟩ = .ok (.setiv (ctxField cw) n ctr) ↔ cw &&& 0xFFFFFF0F = 0x00000002) ∧
    (∀ len din, decode ⟨cw, .dataBlock len din⟩ = .ok (.process (ctxField cw) len din) ↔
      cw &&& 0xFFFFFF0F = 0x00000003) ∧
    (decode ⟨cw, .empty⟩ = .ok (.genblock (ctxField cw)) ↔ cw &&& 0xFFFFFF0F = 0x00000004) ∧
    (∀ ops, decode ⟨cw, ops⟩ = .error .reservedEncoding ↔
      (cw &&& 0xFFFFFF0F ≠ 0x00000001 ∧ cw &&& 0xFFFFFF0F ≠ 0x00000002 ∧ cw &&& 0xFFFFFF0F ≠ 0x00000003 ∧
        cw &&& 0xFFFFFF0F ≠ 0x00000004)) ∧
    (ctxField cw).toNat = cw.toNat / 16 % 16

/-- Command words of 95_test_vectors.md decode to the commands they stand for, with the operands of: P3 line 1, P2 line 6,
P1 line 4, XC-1a and SG-1; and RF-1 to RF-4 are reserved. -/
def Obligations.PublishedWordsDecode : Prop :=
  decode ⟨0x00000011, .keyBlock 32 (List.replicate 32 0)⟩ = .ok (.setkey 1 32 (List.replicate 32 0)) ∧
  decode ⟨0x00000001, .keyBlock 32 (List.replicate 32 0)⟩ = .ok (.setkey 0 32 (List.replicate 32 0)) ∧
  decode ⟨0x00000022, .ivBlock [0, 0, 0, 0, 0, 0, 0, 0x4a, 0, 0, 0, 0] 1⟩ =
    .ok (.setiv 2 [0, 0, 0, 0, 0, 0, 0, 0x4a, 0, 0, 0, 0] 1) ∧
  decode ⟨0x00000013, .dataBlock 0 []⟩ = .ok (.process 1 0 []) ∧
  decode ⟨0x00000014, .empty⟩ = .ok (.genblock 1) ∧
  decode ⟨0x00000010, .empty⟩ = .error .reservedEncoding ∧
  decode ⟨0x00000015, .empty⟩ = .error .reservedEncoding ∧
  decode ⟨0x0000001F, .empty⟩ = .error .reservedEncoding ∧
  decode ⟨0x00000114, .empty⟩ = .error .reservedEncoding

/-- R57: a handle names slot `h - 1` exactly when 1 <= h <= NCTX, and a well-formed command on any other handle returns
NULL_CONTEXT, leaving every slot as it was. -/
def Obligations.AbsentHandlesReturnNullContext : Prop :=
  (∀ (s : State) (h : Handle), (present s h = true ↔ 1 ≤ h.toNat ∧ h.toNat ≤ s.nctx) ∧
    (1 ≤ h.toNat ∧ h.toNat ≤ s.nctx → slotAt s h = s.slots[h.toNat - 1]?) ∧
    (slotAt s h = none ↔ ¬ (1 ≤ h.toNat ∧ h.toNat ≤ s.nctx))) ∧
  (∀ (i : Instr) (s : State), i.wellFormed = true → ¬ (1 ≤ i.handle.toNat ∧ i.handle.toNat ≤ s.nctx) →
    ∃ t, exec i s = .next t ∧ t.slots = s.slots ∧ CompletedWith s t i.handle 1 [])

/-- R61: a reserved command word is refused, whatever its operands, with no change of state, no status and no response;
only the mark of R102 is set. What becomes of the port is left open here (log 13). -/
def Obligations.ReservedWordsAreRefused : Prop :=
  ∀ (s : State) (t : Transaction) (rest : List PortEvent), s.port = .command t :: rest → s.Good →
    (t.cw.toNat % 16 = 0 ∨ 5 ≤ t.cw.toNat % 16 ∨ t.cw.toNat / 2 ^ 8 ≠ 0) →
    step s = .refused .reservedEncoding ∧
    { advance s with port := s.port } = { s with refused := some .reservedEncoding }

/-- R60, R102: a transaction is refused exactly when it is not well formed, for one of the two reasons, and a refusal
sets its mark and nothing else. What becomes of the port is left open here (log 13). -/
def Obligations.ExactlyTheMalformedAreRefused : Prop :=
  ∀ (s : State) (t : Transaction) (rest : List PortEvent), s.port = .command t :: rest → s.Good →
    ((t.cw.toNat / 2 ^ 8 = 0 ∧
      match t.operands with
      | .keyBlock _ k => t.cw.toNat % 16 = 1 ∧ k.length = 32
      | .ivBlock n _ => t.cw.toNat % 16 = 2 ∧ n.length = 12
      | .dataBlock len din => t.cw.toNat % 16 = 3 ∧ din.length = len.toNat
      | .empty => t.cw.toNat % 16 = 4) ↔ ∀ r, step s ≠ .refused r) ∧
    (∀ r, step s = .refused r → (r = .reservedEncoding ∨ r = .malformedTransaction) ∧
      { advance s with port := s.port } = { s with refused := some r })

/-- R64: when the transaction first at the port decodes to a command and no mark is set, the step is that command's
meaning in the state the transaction has been taken from. -/
def Obligations.StepRunsTheDecodedCommand : Prop :=
  ∀ (s : State) (t : Transaction) (rest : List PortEvent) (i : Instr),
    s.port = .command t :: rest → s.Good → decode t = .ok i → step s = exec i { s with port := rest }

/-! ### State initializer (R67 to R72) -/

/-- R67, every branch of SETKEY: a key port of the wrong width is refused, an absent handle returns NULL_CONTEXT, a key
size other than 16 and 32 returns INVALID_KEY_SIZE, and otherwise words 0 to 11 and KEY_VALID are written as the rule
says, words 12 to 15 and IV_VALID kept. -/
def Obligations.SetkeyFollowsItsRule : Prop :=
  ∀ (h : Handle) (ksz : Word) (k : List Byte) (s : State),
    (encode (.setkey h ksz k)).cw = (0x00000001 : Word) ||| (h.setWidth 32 <<< 4) ∧
    (k.length ≠ 32 → exec (.setkey h ksz k) s = .refused .malformedTransaction) ∧
    (k.length = 32 → ¬ (1 ≤ h.toNat ∧ h.toNat ≤ s.nctx) →
      ∃ t, exec (.setkey h ksz k) s = .next t ∧ t.slots = s.slots ∧ CompletedWith s t h 1 []) ∧
    (k.length = 32 → (1 ≤ h.toNat ∧ h.toNat ≤ s.nctx) → ksz ≠ 16 → ksz ≠ 32 →
      ∃ t, exec (.setkey h ksz k) s = .next t ∧ t.slots = s.slots ∧ CompletedWith s t h 2 []) ∧
    (∀ c, k.length = 32 → slotAt s h = some c → (ksz = 16 ∨ ksz = 32) →
      ∃ t c', exec (.setkey h ksz k) s = .next t ∧ CompletedWith s t h 0 [] ∧ slotAt t h = some c' ∧
        c'.keyValid = true ∧ c'.ivValid = c.ivValid ∧
        ∀ i, i < 4 →
          wordAt c'.words i =
            (if ksz = 32 then s.constants.sigma.toList.getD i 0 else s.constants.tau.toList.getD i 0) ∧
          wordAt c'.words (4 + i) = le32 k (4 * i) ∧
          wordAt c'.words (8 + i) = (if ksz = 32 then le32 k (16 + 4 * i) else le32 k (4 * i)) ∧
          wordAt c'.words (12 + i) = wordAt c.words (12 + i))

/-- R67 (corner cases), R58: with KSZ = 16 the bytes K[16..31] are ignored, and with a KSZ that is neither 16 nor 32 all
of K is. -/
def Obligations.IgnoredKeyBytesDoNotMatter : Prop :=
  ∀ (h : Handle) (ksz : Word) (k k' : List Byte) (s : State), k.length = 32 → k'.length = 32 →
    (ksz = 16 → k.take 16 = k'.take 16 → exec (.setkey h ksz k) s = exec (.setkey h ksz k') s) ∧
    (ksz ≠ 16 → ksz ≠ 32 → exec (.setkey h ksz k) s = exec (.setkey h ksz k') s)

/-- R70, every branch of SETIV: a nonce of the wrong width is refused, an absent handle returns NULL_CONTEXT, and
otherwise words 12 to 15 and IV_VALID are written for every counter and nonce, words 0 to 11 and KEY_VALID kept. -/
def Obligations.SetivFollowsItsRule : Prop :=
  ∀ (h : Handle) (n : List Byte) (ctr : Word) (s : State),
    (encode (.setiv h n ctr)).cw = (0x00000002 : Word) ||| (h.setWidth 32 <<< 4) ∧
    (n.length ≠ 12 → exec (.setiv h n ctr) s = .refused .malformedTransaction) ∧
    (n.length = 12 → ¬ (1 ≤ h.toNat ∧ h.toNat ≤ s.nctx) →
      ∃ t, exec (.setiv h n ctr) s = .next t ∧ t.slots = s.slots ∧ CompletedWith s t h 1 []) ∧
    (∀ c, n.length = 12 → slotAt s h = some c →
      ∃ t c', exec (.setiv h n ctr) s = .next t ∧ CompletedWith s t h 0 [] ∧ slotAt t h = some c' ∧
        c'.ivValid = true ∧ c'.keyValid = c.keyValid ∧ wordAt c'.words 12 = ctr ∧
        (∀ i, i < 3 → wordAt c'.words (13 + i) = le32 n (4 * i)) ∧
        ∀ i, i < 12 → wordAt c'.words i = wordAt c.words i)

/-- R69, D24: SETKEY and SETIV on a slot, both OK, leave the same slots in either order. -/
def Obligations.SetkeyAndSetivCommute : Prop :=
  ∀ (h : Handle) (ksz ctr : Word) (k n : List Byte) (s : State),
    k.length = 32 → n.length = 12 → (ksz = 16 ∨ ksz = 32) → (1 ≤ h.toNat ∧ h.toNat ≤ s.nctx) →
    ∃ t t', runCommands [.setkey h ksz k, .setiv h n ctr] s = .next t ∧
      runCommands [.setiv h n ctr, .setkey h ksz k] s = .next t' ∧ t.slots = t'.slots ∧ t.status = t'.status

/-- R71, R120: SETIV sets the position anew whatever keystream the slot has produced: after any run of keystream commands
on the slot it leaves the slot it would have left without them. -/
def Obligations.SetivRestartsTheKeystream : Prop :=
  ∀ (h : Handle) (n : List Byte) (ctr : Word) (is : List Instr) (s t : State),
    n.length = 12 → (1 ≤ h.toNat ∧ h.toNat ≤ s.nctx) → (∀ i ∈ is, isKeystreamCommand h i = true) →
    runCommands is s = .next t →
    ∃ u u', exec (.setiv h n ctr) t = .next u ∧ exec (.setiv h n ctr) s = .next u' ∧ slotAt u h = slotAt u' h

/-! ### Block permutation engine (R73 to R82) -/

/-- R74: on four distinct positions the quarter round computes the rule's four lines and leaves the other twelve words
alone; and the positions of every group the transform uses are distinct. -/
def Obligations.QuarterRoundFollowsItsLines : Prop :=
  (∀ (x : Vector Word 16) (a b c d : Fin 16), a ≠ b → a ≠ c → a ≠ d → b ≠ c → b ≠ d → c ≠ d →
    ∃ a1 b1 c1 d1 a2 b2 c2 d2 : Word,
      a1 = x[a] + x[b] ∧ d1 = rotl32 (x[d] ^^^ a1) 16 ∧ c1 = x[c] + d1 ∧ b1 = rotl32 (x[b] ^^^ c1) 12 ∧
      a2 = a1 + b1 ∧ d2 = rotl32 (d1 ^^^ a2) 8 ∧ c2 = c1 + d2 ∧ b2 = rotl32 (b1 ^^^ c2) 7 ∧
      (quarterRound x a b c d)[a] = a2 ∧ (quarterRound x a b c d)[b] = b2 ∧
      (quarterRound x a b c d)[c] = c2 ∧ (quarterRound x a b c d)[d] = d2 ∧
      ∀ j : Fin 16, j ≠ a → j ≠ b → j ≠ c → j ≠ d → (quarterRound x a b c d)[j] = x[j]) ∧
  (∀ g ∈ columnGroups ++ diagonalGroups, [g.1, g.2.1, g.2.2.1, g.2.2.2].Nodup)

/-- R77: the groups of each pass hold every position exactly once, and the result of a pass is the same in any order of
its four quarter rounds. -/
def Obligations.QuarterRoundsOfAPassCommute : Prop :=
  (∀ gs, gs = columnGroups ∨ gs = diagonalGroups →
    (gs.flatMap fun g => [g.1, g.2.1, g.2.2.1, g.2.2.2]).Perm (List.finRange 16)) ∧
  (∀ (x : Vector Word 16) (gs : List (Fin 16 × Fin 16 × Fin 16 × Fin 16)), gs.Perm columnGroups →
    quarterPass x gs = quarterPass x columnGroups) ∧
  (∀ (x : Vector Word 16) (gs : List (Fin 16 × Fin 16 × Fin 16 × Fin 16)), gs.Perm diagonalGroups →
    quarterPass x gs = quarterPass x diagonalGroups)

/-- R75, R76, R78: a double round is the eight quarter rounds of the two passes, in the order the rules give. -/
def Obligations.DoubleRoundIsColumnsThenDiagonals : Prop :=
  ∀ x : Vector Word 16,
    ∃ x1 x2 x3 x4 x5 x6 x7 x8 : Vector Word 16,
      x1 = quarterRound x 0 4 8 12 ∧ x2 = quarterRound x1 1 5 9 13 ∧ x3 = quarterRound x2 2 6 10 14 ∧
      x4 = quarterRound x3 3 7 11 15 ∧ x5 = quarterRound x4 0 5 10 15 ∧ x6 = quarterRound x5 1 6 11 12 ∧
      x7 = quarterRound x6 2 7 8 13 ∧ x8 = quarterRound x7 3 4 9 14 ∧ doubleRound x = x8

/-- R80, R42: the block is 64 bytes, byte `4i + j` is bits `8j+7 : 8j` of word `i` of the ten-double-round result plus
the input, and the all-zero input gives 64 zero bytes. -/
def Obligations.BlockTransformSerialisesTheFeedForward : Prop :=
  (∀ s : Vector Word 16, (blockTransform s).length = 64 ∧
    ∀ i j, i < 16 → j < 4 → (blockTransform s).getD (4 * i + j) 0 =
      (wordAt (doubleRound (doubleRound (doubleRound (doubleRound (doubleRound (doubleRound (doubleRound (doubleRound
        (doubleRound (doubleRound s)))))))))) i + wordAt s i).extractLsb' (8 * j) 8) ∧
  blockTransform (Vector.replicate 16 0) = List.replicate 64 0

/-- The 20 rounds are a permutation of the 16-word states, as R1 and the title of 41_block_transform.md name them: no two
working copies give the same result. -/
def Obligations.DoubleRoundsAreInjective : Prop :=
  ∀ n : Nat, Function.Injective (doubleRounds n)

/-! ### Sequencer (R83 to R87) -/

/-- R84, every branch of GENBLOCK: an absent handle returns NULL_CONTEXT, a slot without a key or an IV faults, and
otherwise `DOUT` is the block at the counter from before the increment, word 12 is one more modulo 2^32, and every other
word and both flags are kept. -/
def Obligations.GenblockFollowsItsRule : Prop :=
  ∀ (h : Handle) (s : State),
    (encode (.genblock h)).cw = (0x00000004 : Word) ||| (h.setWidth 32 <<< 4) ∧
    (∀ (ops : OperandBlock) (rest : List PortEvent), ops ≠ .empty → s.Good →
      s.port = .command ⟨(encode (.genblock h)).cw, ops⟩ :: rest → step s = .refused .malformedTransaction) ∧
    (¬ (1 ≤ h.toNat ∧ h.toNat ≤ s.nctx) →
      ∃ t, exec (.genblock h) s = .next t ∧ t.slots = s.slots ∧ CompletedWith s t h 1 []) ∧
    (∀ c, slotAt s h = some c → (c.keyValid = false ∨ c.ivValid = false) →
      exec (.genblock h) s = .fault .uninitializedState) ∧
    (∀ c, slotAt s h = some c → c.keyValid = true → c.ivValid = true →
      ∃ t c', exec (.genblock h) s = .next t ∧ CompletedWith s t h 0 (blockTransform c.words) ∧
        slotAt t h = some c' ∧ c'.keyValid = true ∧ c'.ivValid = true ∧
        (wordAt c'.words 12).toNat = ((wordAt c.words 12).toNat + 1) % 2 ^ 32 ∧
        ∀ i, i < 16 → i ≠ 12 → wordAt c'.words i = wordAt c.words i)

/-- R84 (corner cases, the spec's own inference from R83 and R88): GENBLOCK is PROCESS of 64 zero bytes, outcome for
outcome. -/
def Obligations.GenblockIsProcessOfZeros : Prop :=
  ∀ (h : Handle) (s : State), exec (.genblock h) s = exec (.process h 64 (List.replicate 64 0)) s

/-- R85 and R119 (the spec's own inferences): whatever mix of GENBLOCK and PROCESS runs on a ready slot, each starts at
the block after those the earlier ones used, so the responses are those of the closed form and word 12 ends at
`(c0 + n) mod 2^32` for the n blocks used. -/
def Obligations.KeystreamRunsFollowTheCounter : Prop :=
  ∀ (h : Handle) (c : Slot) (is : List Instr) (s : State),
    slotAt s h = some c → c.keyValid = true → c.ivValid = true → (∀ i ∈ is, isKeystreamCommand h i = true) →
    ∃ t, runCommands is s = .next t ∧ slotAt t h = some (slotAfter (blocksUsed is) c) ∧
      t.responses = s.responses ++ keystreamResponses c is ∧ ∀ h', h' ≠ h → slotAt t h' = slotAt s h'

/-- R86, R84 (corner cases): a run of `n` GENBLOCKs on a ready slot delivers `n` responses, every one with status OK; the
response of block `k + 2^32` is that of block `k`, and the slot is back where it was exactly when `n` is a multiple of
2^32. -/
def Obligations.KeystreamRepeatsAfterItsPeriod : Prop :=
  ∀ (h : Handle) (c : Slot) (n : Nat) (s : State), slotAt s h = some c → c.keyValid = true → c.ivValid = true →
    ∃ (t : State) (rs : List Response), runCommands (List.replicate n (.genblock h)) s = .next t ∧
      t.responses = s.responses ++ rs ∧ rs.length = n ∧ (∀ r ∈ rs, r.status = 0) ∧
      (∀ k, k + 2 ^ 32 < n → rs[k + 2 ^ 32]? = rs[k]?) ∧
      (slotAt t h = some c ↔ n % 2 ^ 32 = 0)

/-! ### Combiner (R88 to R95) -/

/-- R88, the branches before the loop: `|DIN|` other than LEN is refused, an absent handle returns NULL_CONTEXT before
LEN is looked at, and a slot without a key or an IV faults when LEN > 0. -/
def Obligations.ProcessChecksBeforeItsLoop : Prop :=
  ∀ (h : Handle) (len : Word) (din : List Byte) (s : State),
    (encode (.process h len din)).cw = (0x00000003 : Word) ||| (h.setWidth 32 <<< 4) ∧
    (din.length ≠ len.toNat → exec (.process h len din) s = .refused .malformedTransaction) ∧
    (din.length = len.toNat → ¬ (1 ≤ h.toNat ∧ h.toNat ≤ s.nctx) →
      ∃ t, exec (.process h len din) s = .next t ∧ t.slots = s.slots ∧ CompletedWith s t h 1 []) ∧
    (∀ c, din.length = len.toNat → slotAt s h = some c → len ≠ 0 → (c.keyValid = false ∨ c.ivValid = false) →
      exec (.process h len din) s = .fault .uninitializedState)

/-- R89: PROCESS with LEN = 0 on a present slot returns OK, emits nothing and writes no slot state, key and IV or not. -/
def Obligations.ProcessOfNoBytesIsANoOp : Prop :=
  ∀ (h : Handle) (s : State), 1 ≤ h.toNat ∧ h.toNat ≤ s.nctx →
    ∃ t, exec (.process h 0 []) s = .next t ∧ t.slots = s.slots ∧ CompletedWith s t h 0 []

/-- R92 (the spec's own inference from R88 and R83): the closed form. On a ready slot `DOUT[i]` is `DIN[i]` XOR byte
`i mod 64` of the block at counter `(c0 + floor(i / 64)) mod 2^32`, word 12 advances by `ceil(LEN / 64)`, and every other
word and both flags are kept. -/
def Obligations.ProcessFollowsTheClosedForm : Prop :=
  ∀ (h : Handle) (len : Word) (din : List Byte) (s : State) (c : Slot),
    din.length = len.toNat → slotAt s h = some c → c.keyValid = true → c.ivValid = true →
    ∃ (t : State) (c' : Slot) (dout : List Byte), exec (.process h len din) s = .next t ∧
      CompletedWith s t h 0 dout ∧ slotAt t h = some c' ∧ dout.length = len.toNat ∧
      (∀ i, i < len.toNat → dout.getD i 0 = din.getD i 0 ^^^
        (blockTransform (c.words.set 12 (c.words[12] + BitVec.ofNat 32 (i / 64)))).getD (i % 64) 0) ∧
      c'.keyValid = true ∧ c'.ivValid = true ∧
      (wordAt c'.words 12).toNat = ((wordAt c.words 12).toNat + (len.toNat + 63) / 64) % 2 ^ 32 ∧
      ∀ i, i < 16 → i ≠ 12 → wordAt c'.words i = wordAt c.words i

/-- R91: a PROCESS that returns OK with LEN > 0 emits exactly LEN bytes and advances word 12 by exactly the least `n`
with `64 * n >= LEN`, modulo 2^32. -/
def Obligations.ProcessEmitsLenBytesAndCountsBlocks : Prop :=
  ∀ (h : Handle) (len : Word) (din : List Byte) (s t : State),
    exec (.process h len din) s = .next t → t.status = 0 → len ≠ 0 →
    ∃ (c c' : Slot) (dout : List Byte) (n : Nat), slotAt s h = some c ∧ slotAt t h = some c' ∧
      t.responses = s.responses ++ [⟨0, dout⟩] ∧ dout.length = len.toNat ∧
      len.toNat ≤ 64 * n ∧ 64 * n < len.toNat + 64 ∧
      (wordAt c'.words 12).toNat = ((wordAt c.words 12).toNat + n) % 2 ^ 32

/-- R46: output byte `i` depends on no other input byte. -/
def Obligations.OutputByteDependsOnItsInputByte : Prop :=
  ∀ (h : Handle) (len : Word) (din din' : List Byte) (i : Nat) (s : State) (c : Slot),
    din.length = len.toNat → din'.length = len.toNat → i < len.toNat → din.getD i 0 = din'.getD i 0 →
    slotAt s h = some c → c.keyValid = true → c.ivValid = true →
    ∃ (t t' : State) (dout dout' : List Byte), exec (.process h len din) s = .next t ∧
      exec (.process h len din') s = .next t' ∧ t.slots = t'.slots ∧
      t.responses = s.responses ++ [⟨0, dout⟩] ∧ t'.responses = s.responses ++ [⟨0, dout'⟩] ∧
      dout.getD i 0 = dout'.getD i 0

/-- R93: PROCESS twice, each time from a slot freshly set to the same key, nonce and counter, returns the input: on any
two handles, in any two states with the same constants, whatever the slots held. -/
def Obligations.ProcessTwiceReturnsTheInput : Prop :=
  ∀ (h h' : Handle) (ksz ctr len : Word) (k n din : List Byte) (s s' : State),
    k.length = 32 → n.length = 12 → (ksz = 16 ∨ ksz = 32) → din.length = len.toNat → s.constants = s'.constants →
    (1 ≤ h.toNat ∧ h.toNat ≤ s.nctx) → (1 ≤ h'.toNat ∧ h'.toNat ≤ s'.nctx) →
    ∃ (t t' : State) (dout : List Byte),
      runCommands [.setkey h ksz k, .setiv h n ctr, .process h len din] s = .next t ∧
      t.responses = s.responses ++ [⟨0, []⟩, ⟨0, []⟩, ⟨0, dout⟩] ∧
      runCommands [.setkey h' ksz k, .setiv h' n ctr, .process h' len dout] s' = .next t' ∧
      t'.responses = s'.responses ++ [⟨0, []⟩, ⟨0, []⟩, ⟨0, din⟩]

/-! ### Errors and checks (R96 to R103) -/

/-- R96: the three codes and their causes: 1 exactly when the handle names no slot, 2 exactly for SETKEY on a present
handle with a size not in {16, 32}, 0 otherwise. -/
def Obligations.StatusCodesHaveTheirCauses : Prop :=
  ∀ (i : Instr) (s t : State), exec i s = .next t →
    (t.status = 1 ↔ ¬ (1 ≤ i.handle.toNat ∧ i.handle.toNat ≤ s.nctx)) ∧
    (t.status = 2 ↔ (1 ≤ i.handle.toNat ∧ i.handle.toNat ≤ s.nctx) ∧
      ∃ h ksz k, i = .setkey h ksz k ∧ ksz ≠ 16 ∧ ksz ≠ 32) ∧
    (t.status = 0 ∨ t.status = 1 ∨ t.status = 2)

/-- R97: a command that returns NULL_CONTEXT or INVALID_KEY_SIZE changes no slot and emits no byte; it writes only
STATUS (and its response). -/
def Obligations.ErrorsChangeOnlyStatus : Prop :=
  ∀ (i : Instr) (s t : State), exec i s = .next t → t.status = 1 ∨ t.status = 2 →
    t = { s with status := t.status, responses := s.responses ++ [⟨t.status, []⟩] }

/-- R30, R63: every command that completes delivers one response with the code it leaves in STATUS, with LEN bytes for an
OK PROCESS, 64 for an OK GENBLOCK and none otherwise; a step that faults or is refused delivers none and writes no
STATUS. -/
def Obligations.EveryCompletionDeliversOneResponse : Prop :=
  (∀ (i : Instr) (s t : State), exec i s = .next t →
    ∃ dout, t.responses = s.responses ++ [⟨t.status, dout⟩] ∧
      dout.length = (if t.status = 0 then
        match i with
        | .process _ len _ => len.toNat
        | .genblock _ => 64
        | .setkey _ _ _ => 0
        | .setiv _ _ _ => 0
      else 0)) ∧
  (∀ s : State, (∀ t, step s ≠ .next t) → (advance s).responses = s.responses ∧ (advance s).status = s.status)

/-- R98: nothing a host does with keys, nonces and counters is an error: on a present slot SETIV returns OK for every
nonce and counter, and on a ready slot GENBLOCK and PROCESS return OK whatever the words and the counter are. -/
def Obligations.MisuseIsNotAnError : Prop :=
  ∀ (h : Handle) (s : State) (c : Slot), slotAt s h = some c →
    (∀ n ctr, n.length = 12 → ∃ t, exec (.setiv h n ctr) s = .next t ∧ t.status = 0) ∧
    (c.keyValid = true → c.ivValid = true →
      (∃ t, exec (.genblock h) s = .next t ∧ t.status = 0) ∧
      ∀ len din, din.length = len.toNat → ∃ t, exec (.process h len din) s = .next t ∧ t.status = 0)

/-- R99: errors are not sticky: after a command that failed, every command has the outcome it would have had, slot for
slot, status for status and response for response, and the failed command's code stays in STATUS until one completes. -/
def Obligations.ErrorsAreNotSticky : Prop :=
  ∀ (i j : Instr) (s s' : State), exec i s = .next s' → s'.status ≠ 0 →
    (∀ t, exec j s = .next t → ∃ (t' : State) (r : Response), exec j s' = .next t' ∧
      t'.slots = t.slots ∧ t'.status = t.status ∧
      t.responses = s.responses ++ [r] ∧ t'.responses = s'.responses ++ [r]) ∧
    (∀ r, exec j s = .fault r ↔ exec j s' = .fault r) ∧
    (∀ r, exec j s = .refused r ↔ exec j s' = .refused r) ∧
    ((∀ t, exec j s' ≠ .next t) → (settle s' (exec j s')).status = s'.status)

/-- R101: UNINITIALIZED_STATE is raised by GENBLOCK, and by PROCESS with LEN > 0, on a present slot whose KEY_VALID or
IV_VALID is 0, and by nothing else. -/
def Obligations.OnlyUninitializedSlotsFault : Prop :=
  ∀ (i : Instr) (s : State), i.wellFormed = true →
    ((∃ r, exec i s = .fault r) ↔
      (∃ c, slotAt s i.handle = some c ∧ (c.keyValid = false ∨ c.ivValid = false)) ∧
      ((∃ h, i = .genblock h) ∨ ∃ h len din, i = .process h len din ∧ len ≠ 0)) ∧
    (∀ r, exec i s = .fault r → r = .uninitializedState)

/-- R100, R102: a step that faults or is refused sets its mark, writes no STATUS, emits no response and changes no slot. -/
def Obligations.StopsOnlySetTheirMark : Prop :=
  (∀ (s : State) (r : Fault), step s = .fault r →
    (advance s).faulted = some r ∧ (advance s).refused = s.refused ∧ (advance s).status = s.status ∧
    (advance s).responses = s.responses ∧ (advance s).slots = s.slots) ∧
  (∀ (s : State) (r : Refusal), step s = .refused r →
    (advance s).refused = some r ∧ (advance s).faulted = s.faulted ∧ (advance s).status = s.status ∧
    (advance s).responses = s.responses ∧ (advance s).slots = s.slots)

/-- R31, R64, R103 item 1: while a mark is set no transaction is executed, whatever it is; the mark stays and nothing else
changes. What becomes of the port is left open here (log 13); the reset input is not a transaction (log 5). -/
def Obligations.MarksAreSticky : Prop :=
  ∀ (s : State) (t : Transaction) (rest : List PortEvent), s.port = .command t :: rest → ¬ s.Good →
    (∀ u, step s ≠ .next u) ∧ { advance s with port := s.port } = s

/-- R103: the order of the checks for one transaction, the first that holds deciding the outcome. -/
def Obligations.ChecksRunInTheirOrder : Prop :=
  ∀ (s : State) (t : Transaction) (rest : List PortEvent), s.port = .command t :: rest →
    if ¬ s.Good then ∀ u, step s ≠ .next u
    else if t.cw.toNat / 2 ^ 8 ≠ 0 ∨ t.cw.toNat % 16 = 0 ∨ 5 ≤ t.cw.toNat % 16 then
      step s = .refused .reservedEncoding
    else if transactionWellFormed t = false then step s = .refused .malformedTransaction
    else if ¬ (1 ≤ t.cw.toNat / 16 % 16 ∧ t.cw.toNat / 16 % 16 ≤ s.nctx) then ∃ u, step s = .next u ∧ u.status = 1
    else if (match t.operands with
        | .keyBlock ksz _ => ksz != 16 && ksz != 32
        | .ivBlock _ _ => false
        | .dataBlock _ _ => false
        | .empty => false) = true then
      ∃ u, step s = .next u ∧ u.status = 2
    else if t.cw.toNat % 16 = 3 ∧ t.operands = .dataBlock 0 [] then
      ∃ u, step s = .next u ∧ u.status = 0 ∧ u.slots = s.slots
    else if (t.cw.toNat % 16 = 3 ∨ t.cw.toNat % 16 = 4) ∧
        (match s.slots[t.cw.toNat / 16 % 16 - 1]? with
        | some c => !c.keyValid || !c.ivValid
        | none => false) = true then
      step s = .fault .uninitializedState
    else ∃ u, step s = .next u ∧ u.status = 0

/-! ### Frames and isolation (R22, R28, R29, R47) -/

/-- R28: which command writes which word and flag of the slot it names. -/
def Obligations.OnlyTheListedWordsAreWritten : Prop :=
  ∀ (i : Instr) (s t : State) (c : Slot), exec i s = .next t → slotAt s i.handle = some c →
    ∃ c', slotAt t i.handle = some c' ∧
      (t.status ≠ 0 → c' = c) ∧
      (t.status = 0 →
        match i with
        | .setkey _ _ _ => c'.keyValid = true ∧ c'.ivValid = c.ivValid ∧
            ∀ j, 12 ≤ j → j < 16 → wordAt c'.words j = wordAt c.words j
        | .setiv _ _ _ => c'.ivValid = true ∧ c'.keyValid = c.keyValid ∧
            ∀ j, j < 12 → wordAt c'.words j = wordAt c.words j
        | .genblock _ => c'.keyValid = c.keyValid ∧ c'.ivValid = c.ivValid ∧
            wordAt c'.words 12 = wordAt c.words 12 + 1 ∧
            ∀ j, j < 16 → j ≠ 12 → wordAt c'.words j = wordAt c.words j
        | .process _ len _ => c'.keyValid = c.keyValid ∧ c'.ivValid = c.ivValid ∧
            wordAt c'.words 12 = wordAt c.words 12 + BitVec.ofNat 32 ((len.toNat + 63) / 64) ∧
            (∀ j, j < 16 → j ≠ 12 → wordAt c'.words j = wordAt c.words j) ∧ (len = 0 → c' = c))

/-- R22: a command reads and writes only the slot it names, STATUS and its own response. No other slot changes; and in
two states that agree on that slot and on the configuration it has the same outcome, the same status, the same
response and leaves that slot the same, whatever the other slots hold. -/
def Obligations.CommandsTouchOnlyTheirSlot : Prop :=
  (∀ (i : Instr) (s t : State) (h : Handle), exec i s = .next t → h ≠ i.handle → slotAt t h = slotAt s h) ∧
  (∀ (i : Instr) (s s' : State), s.constants = s'.constants → slotAt s i.handle = slotAt s' i.handle →
    (∀ t, exec i s = .next t → ∃ (t' : State) (r : Response), exec i s' = .next t' ∧ t'.status = t.status ∧
      slotAt t' i.handle = slotAt t i.handle ∧
      t.responses = s.responses ++ [r] ∧ t'.responses = s'.responses ++ [r]) ∧
    (∀ r, exec i s = .fault r → exec i s' = .fault r) ∧
    (∀ r, exec i s = .refused r → exec i s' = .refused r))

/-- R31, R35, R38 and the model's own port: no command touches the marks, the port, the configuration or the number of
slots, and every earlier response stays as it was delivered. -/
def Obligations.CommandsLeaveTheRestAlone : Prop :=
  ∀ (i : Instr) (s t : State), exec i s = .next t →
    t.faulted = s.faulted ∧ t.refused = s.refused ∧ t.port = s.port ∧ t.constants = s.constants ∧
    t.slots.length = s.slots.length ∧ ∃ r, t.responses = s.responses ++ [r]

/-- R29: a flag of a slot is set by an OK SETKEY (or SETIV) on it and by nothing else, and no command clears one. -/
def Obligations.FlagsRecordOkSetups : Prop :=
  ∀ (i : Instr) (s t : State) (h : Handle) (c : Slot), exec i s = .next t → slotAt s h = some c →
    ∃ c', slotAt t h = some c' ∧
      (c'.keyValid = true ↔ c.keyValid = true ∨ (t.status = 0 ∧ ∃ ksz k, i = .setkey h ksz k)) ∧
      (c'.ivValid = true ↔ c.ivValid = true ∨ (t.status = 0 ∧ ∃ n ctr, i = .setiv h n ctr))

/-- R47, R48: every step takes exactly the first event of the port order and delivers at most one response after all
earlier ones. The model's own choices are: that a stop takes its transaction off the port too (log 13); that the reset
input keeps the rest of the port (log 12) and the responses (log 8); that with nothing presented nothing happens
(log 7). -/
def Obligations.StepsTakeThePortInOrder : Prop :=
  ∀ s : State, (advance s).port = s.port.tail ∧
    ∃ rs : List Response, (advance s).responses = s.responses ++ rs ∧ rs.length ≤ 1

/-! ### Reset, hazards (R115 to R121) -/

/-- R72, R116: after an OK SETKEY and an OK SETIV on a slot, in either order, GENBLOCK and every well-formed PROCESS on it
return OK, whatever the slot held before. -/
def Obligations.SetupMakesASlotReady : Prop :=
  ∀ (h : Handle) (ksz ctr : Word) (k n : List Byte) (j : Instr) (s : State),
    k.length = 32 → n.length = 12 → (ksz = 16 ∨ ksz = 32) → (1 ≤ h.toNat ∧ h.toNat ≤ s.nctx) →
    isKeystreamCommand h j = true →
    (∃ t, runCommands [.setkey h ksz k, .setiv h n ctr, j] s = .next t ∧ t.status = 0) ∧
    (∃ t, runCommands [.setiv h n ctr, .setkey h ksz k, j] s = .next t ∧ t.status = 0)

/-- R119 (the spec's own inference): if every piece but the last is a multiple of 64 bytes, PROCESS commands on the
pieces give, together, the output of one PROCESS of the whole, and leave the same slot. -/
def Obligations.AlignedPiecesContinueTheKeystream : Prop :=
  ∀ (h : Handle) (c : Slot) (pieces : List (List Byte)) (last : List Byte) (s : State),
    slotAt s h = some c → c.keyValid = true → c.ivValid = true → (∀ p ∈ pieces, p.length % 64 = 0) →
    (pieces.flatten ++ last).length < 2 ^ 32 →
    ∃ (t t' : State) (douts : List (List Byte)),
      runCommands ((pieces ++ [last]).map fun p => .process h (BitVec.ofNat 32 p.length) p) s = .next t ∧
      exec (.process h (BitVec.ofNat 32 (pieces.flatten ++ last).length) (pieces.flatten ++ last)) s = .next t' ∧
      t.responses = s.responses ++ douts.map (fun d => ⟨0, d⟩) ∧
      t'.responses = s.responses ++ [⟨0, douts.flatten⟩] ∧ t.slots = t'.slots

/-- R118, R119 (hazard): a command after a PROCESS that ended mid-block starts at the next block, at keystream byte
`64 * ceil(L1 / 64)` of the slot's keystream, not at byte `L1`. -/
def Obligations.MidBlockEndSkipsToTheNextBlock : Prop :=
  ∀ (h : Handle) (c : Slot) (a b : List Byte) (s : State),
    slotAt s h = some c → c.keyValid = true → c.ivValid = true → a.length < 2 ^ 32 → b.length < 2 ^ 32 →
    ∃ (t : State) (da db : List Byte),
      runCommands [.process h (BitVec.ofNat 32 a.length) a, .process h (BitVec.ofNat 32 b.length) b] s = .next t ∧
      t.responses = s.responses ++ [⟨0, da⟩, ⟨0, db⟩] ∧ da.length = a.length ∧ db.length = b.length ∧
      (∀ i, i < a.length → da.getD i 0 = a.getD i 0 ^^^ keystreamByte c i) ∧
      (∀ i, i < b.length → db.getD i 0 = b.getD i 0 ^^^ keystreamByte c (64 * ((a.length + 63) / 64) + i))

/-! ### The invariant -/

/-- Every step keeps the invariant (R13, R24, R25, R30, R97), from every state that meets it; so does a step that faults
or is refused, and the reset input. -/
def Obligations.StepKeepsTheInvariant : Prop :=
  ∀ s : State, StateInv s → (∀ t, step s = .next t → StateInv t) ∧ StateInv (advance s)

/-- The invariant holds at reset, in every legal configuration (R13, R39). -/
def Obligations.ResetMeetsTheInvariant : Prop :=
  (∀ cfg : Config, cfg.Legal → StateInv (State.resetOf cfg)) ∧ StateInv State.reset

/-! ### Text form (R65, R66) -/

/-- R65, R66, R60: every line of R65's forms for a well-formed command (`linesOf`: either base for a number, digits,
`zeros(<n>)`, `ascii` or two quotes for bytes, a key written without its last zero bytes) assembles to that command, and
every well-formed command has such a line. Every line that assembles at all, and which these are is the model's choice
where R65 leaves it open (logs 4 and 17), is one well-formed transaction that decodes to the command it was read as. -/
def Obligations.AssembledLinesAreWellFormed : Prop :=
  (∀ i : Instr, i.wellFormed = true → linesOf i ≠ [] ∧ ∀ l ∈ linesOf i, assembleChars l = some i) ∧
  (∀ (cs : List Char) (i : Instr), assembleChars cs = some i →
    i.wellFormed = true ∧ decode (encode i) = .ok i ∧ transactionWellFormed (encode i) = true)
end

