-- ==== Sys2Proof/Laws/State.lean ====
section
/-! SUPPORT. One lemma per field per update of the state, so that no proof unfolds a record update. -/

namespace Sys2Proof.Machine

@[simp] theorem setSlot_constants (h : Handle) (c : Slot) (s : State) : (setSlot h c s).constants = s.constants := rfl
@[simp] theorem setSlot_slots (h : Handle) (c : Slot) (s : State) : (setSlot h c s).slots = s.slots.set (h.toNat - 1) c := rfl
@[simp] theorem setSlot_status (h : Handle) (c : Slot) (s : State) : (setSlot h c s).status = s.status := rfl
@[simp] theorem setSlot_faulted (h : Handle) (c : Slot) (s : State) : (setSlot h c s).faulted = s.faulted := rfl
@[simp] theorem setSlot_refused (h : Handle) (c : Slot) (s : State) : (setSlot h c s).refused = s.refused := rfl
@[simp] theorem setSlot_port (h : Handle) (c : Slot) (s : State) : (setSlot h c s).port = s.port := rfl
@[simp] theorem setSlot_responses (h : Handle) (c : Slot) (s : State) : (setSlot h c s).responses = s.responses := rfl

@[simp] theorem complete_constants (code : StatusCode) (dout : List Byte) (s : State) : (complete code dout s).constants = s.constants := rfl
@[simp] theorem complete_slots (code : StatusCode) (dout : List Byte) (s : State) : (complete code dout s).slots = s.slots := rfl
@[simp] theorem complete_status (code : StatusCode) (dout : List Byte) (s : State) : (complete code dout s).status = statusByte code := rfl
@[simp] theorem complete_faulted (code : StatusCode) (dout : List Byte) (s : State) : (complete code dout s).faulted = s.faulted := rfl
@[simp] theorem complete_refused (code : StatusCode) (dout : List Byte) (s : State) : (complete code dout s).refused = s.refused := rfl
@[simp] theorem complete_port (code : StatusCode) (dout : List Byte) (s : State) : (complete code dout s).port = s.port := rfl
@[simp] theorem complete_responses (code : StatusCode) (dout : List Byte) (s : State) : (complete code dout s).responses = s.responses ++ [⟨statusByte code, dout⟩] := rfl

@[simp] theorem resetOf_constants (cfg : Config) : (State.resetOf cfg).constants = cfg.constants := rfl
@[simp] theorem resetOf_slots (cfg : Config) : (State.resetOf cfg).slots = List.replicate cfg.nctx Slot.reset := rfl
@[simp] theorem resetOf_status (cfg : Config) : (State.resetOf cfg).status = 0 := rfl
@[simp] theorem resetOf_faulted (cfg : Config) : (State.resetOf cfg).faulted = none := rfl
@[simp] theorem resetOf_refused (cfg : Config) : (State.resetOf cfg).refused = none := rfl
@[simp] theorem resetOf_port (cfg : Config) : (State.resetOf cfg).port = [] := rfl
@[simp] theorem resetOf_responses (cfg : Config) : (State.resetOf cfg).responses = [] := rfl

@[simp] theorem applyReset_constants (s : State) : (applyReset s).constants = s.constants := rfl
@[simp] theorem applyReset_slots (s : State) : (applyReset s).slots = List.replicate s.nctx Slot.reset := rfl
@[simp] theorem applyReset_status (s : State) : (applyReset s).status = 0 := rfl
@[simp] theorem applyReset_faulted (s : State) : (applyReset s).faulted = none := rfl
@[simp] theorem applyReset_refused (s : State) : (applyReset s).refused = none := rfl
@[simp] theorem applyReset_port (s : State) : (applyReset s).port = s.port := rfl
@[simp] theorem applyReset_responses (s : State) : (applyReset s).responses = s.responses := rfl

@[simp] theorem settle_fault_constants (s : State) (r : Fault) : (settle s (.fault r)).constants = s.constants := rfl
@[simp] theorem settle_fault_slots (s : State) (r : Fault) : (settle s (.fault r)).slots = s.slots := rfl
@[simp] theorem settle_fault_status (s : State) (r : Fault) : (settle s (.fault r)).status = s.status := rfl
@[simp] theorem settle_fault_faulted (s : State) (r : Fault) : (settle s (.fault r)).faulted = some r := rfl
@[simp] theorem settle_fault_refused (s : State) (r : Fault) : (settle s (.fault r)).refused = s.refused := rfl
@[simp] theorem settle_fault_port (s : State) (r : Fault) : (settle s (.fault r)).port = s.port.tail := rfl
@[simp] theorem settle_fault_responses (s : State) (r : Fault) : (settle s (.fault r)).responses = s.responses := rfl

@[simp] theorem settle_refused_constants (s : State) (r : Refusal) : (settle s (.refused r)).constants = s.constants := rfl
@[simp] theorem settle_refused_slots (s : State) (r : Refusal) : (settle s (.refused r)).slots = s.slots := rfl
@[simp] theorem settle_refused_status (s : State) (r : Refusal) : (settle s (.refused r)).status = s.status := rfl
@[simp] theorem settle_refused_faulted (s : State) (r : Refusal) : (settle s (.refused r)).faulted = s.faulted := rfl
@[simp] theorem settle_refused_refused (s : State) (r : Refusal) : (settle s (.refused r)).refused = some r := rfl
@[simp] theorem settle_refused_port (s : State) (r : Refusal) : (settle s (.refused r)).port = s.port.tail := rfl
@[simp] theorem settle_refused_responses (s : State) (r : Refusal) : (settle s (.refused r)).responses = s.responses := rfl

@[simp] theorem settle_next (s t : State) : settle s (.next t) = t := rfl

@[simp] theorem setSlot_nctx (h : Handle) (c : Slot) (s : State) : (setSlot h c s).nctx = s.nctx := by
  simp [State.nctx]
@[simp] theorem complete_nctx (code : StatusCode) (dout : List Byte) (s : State) :
    (complete code dout s).nctx = s.nctx := rfl
@[simp] theorem resetOf_nctx (cfg : Config) : (State.resetOf cfg).nctx = cfg.nctx := by simp [State.nctx]
@[simp] theorem applyReset_nctx (s : State) : (applyReset s).nctx = s.nctx := by simp [State.nctx]
@[simp] theorem advanceCounter_words (c : Slot) :
    (advanceCounter c).words = c.words.set 12 (c.words[12] + 1) := rfl
@[simp] theorem advanceCounter_keyValid (c : Slot) :
    (advanceCounter c).keyValid = c.keyValid := rfl
@[simp] theorem advanceCounter_ivValid (c : Slot) :
    (advanceCounter c).ivValid = c.ivValid := rfl
@[simp] theorem loadKey_keyValid (consts : Constants) (ksz : Word) (k : List Byte) (c : Slot) :
    (loadKey consts ksz k c).keyValid = true := rfl
@[simp] theorem loadKey_ivValid (consts : Constants) (ksz : Word) (k : List Byte) (c : Slot) :
    (loadKey consts ksz k c).ivValid = c.ivValid := rfl
@[simp] theorem loadIv_words (n : List Byte) (ctr : Word) (c : Slot) :
    (loadIv n ctr c).words = writeWords (writeWords c.words 12 [ctr]) 13 (nonceWords n) := rfl
@[simp] theorem loadIv_keyValid (n : List Byte) (ctr : Word) (c : Slot) :
    (loadIv n ctr c).keyValid = c.keyValid := rfl
@[simp] theorem loadIv_ivValid (n : List Byte) (ctr : Word) (c : Slot) :
    (loadIv n ctr c).ivValid = true := rfl

end Sys2Proof.Machine
end

