-- ==== Sys2Proof/Laws/Block.lean ====
section
/-! SUPPORT. The conversions of R16, the runs of words of R17 and the sizes of the keystream. -/

namespace Sys2Proof.Machine

@[simp] theorem bytes32_length (w : Word) : (bytes32 w).length = 4 := rfl

@[simp] theorem serialize_nil : serialize [] = [] := rfl
@[simp] theorem serialize_cons (w : Word) (ws : List Word) : serialize (w :: ws) = bytes32 w ++ serialize ws := by
  simp [serialize]

theorem serialize_length (ws : List Word) : (serialize ws).length = 4 * ws.length := by
  induction ws with
  | nil => rfl
  | cons w ws ih => simp [ih]; omega

theorem blockTransform_length (s : Vector Word 16) : (blockTransform s).length = 64 := by
  simp [blockTransform, serialize_length]

@[simp] theorem writeWords_nil (x : Vector Word 16) (i : Nat) : writeWords x i [] = x := rfl
theorem writeWords_cons (x : Vector Word 16) (i : Nat) (w : Word) (ws : List Word) :
    writeWords x i (w :: ws) = writeWords (x.setIfInBounds i w) (i + 1) ws := rfl

/-- A run of words written from `i` on holds those words and leaves every other one alone. -/
theorem writeWords_get (ws : List Word) (x : Vector Word 16) (i : Nat) (j : Nat) (hj : j < 16) :
    (writeWords x i ws)[j] = if i ≤ j then (ws[j - i]?).getD x[j] else x[j] := by
  induction ws generalizing x i with
  | nil => simp
  | cons w ws ih =>
    rw [writeWords_cons, ih]
    by_cases hi : i ≤ j
    · by_cases he : i = j
      · subst he; simp
      · have h1 : i + 1 ≤ j := by omega
        have h2 : j - i = (j - (i + 1)) + 1 := by omega
        simp [hi, h1, h2, he]
    · have h1 : ¬ i + 1 ≤ j := by omega
      have he : i ≠ j := by omega
      simp [hi, h1, he]

/-- The twelve words an OK SETKEY writes, words 0 to 11 in order (R67). -/
def keyWords (consts : Constants) (ksz : Word) (k : List Byte) : List Word :=
  if ksz = 32 then consts.sigma.toList ++ (keyHalf k 0 ++ keyHalf k 16)
  else consts.tau.toList ++ (keyHalf k 0 ++ keyHalf k 0)

theorem writeKeyWords_get (x : Vector Word 16) (cs lo hi : List Word) (hc : cs.length = 4) (hl : lo.length = 4)
    (j : Nat) (hj : j < 16) :
    (writeWords (writeWords (writeWords x 4 lo) 8 hi) 0 cs)[j] = ((cs ++ (lo ++ hi))[j]?).getD x[j] := by
  simp only [writeWords_get]
  by_cases h4 : j < 4
  · rw [List.getElem?_append_left (by omega)]
    simp [h4, hc]
  · rw [List.getElem?_append_right (by omega), hc]
    have hcs : cs[j]? = none := List.getElem?_eq_none (by omega)
    by_cases h8 : j < 8
    · have h1 : 4 ≤ j := by omega
      have h2 : ¬ 8 ≤ j := by omega
      have h3 : j - 4 < lo.length := by omega
      simp [hcs, h1, h2, List.getElem?_append_left h3]
    · have h1 : 4 ≤ j := by omega
      have h2 : 8 ≤ j := by omega
      have h3 : lo[j - 4]? = none := List.getElem?_eq_none (by omega)
      have h5 : j - 4 - 4 = j - 8 := by omega
      rw [List.getElem?_append_right (by omega), hl, h5]
      simp [hcs, h1, h2, h3]

/-- SETKEY's words (R67): the twelve written ones, and the counter and the nonce kept (R69). -/
theorem loadKey_get (consts : Constants) (ksz : Word) (k : List Byte) (c : Slot) (j : Nat) (hj : j < 16) :
    (loadKey consts ksz k c).words[j] = ((keyWords consts ksz k)[j]?).getD c.words[j] := by
  unfold loadKey keyWords
  split <;> exact writeKeyWords_get _ _ _ _ (by simp) rfl j hj

/-- SETIV's words (R70): words 0 to 11 kept, then the counter and the nonce. -/
theorem loadIv_get (n : List Byte) (ctr : Word) (c : Slot) (j : Nat) (hj : j < 16) :
    (loadIv n ctr c).words[j] =
      if j < 12 then c.words[j] else ([ctr, le32 n 0, le32 n 4, le32 n 8][j - 12]?).getD c.words[j] := by
  simp only [loadIv_words, writeWords_get, nonceWords]
  by_cases h12 : j < 12
  · have h1 : ¬ 12 ≤ j := by omega
    have h2 : ¬ 13 ≤ j := by omega
    simp [h12, h1, h2]
  · have : j = 12 ∨ j = 13 ∨ j = 14 ∨ j = 15 := by omega
    rcases this with rfl | rfl | rfl | rfl <;> simp

@[simp] theorem combineBlocks_zero (din : List Byte) (c : Slot) : combineBlocks 0 din c = ([], c) := rfl
theorem combineBlocks_succ (n : Nat) (din : List Byte) (c : Slot) :
    combineBlocks (n + 1) din c =
      (xorBytes (din.take 64) (blockTransform c.words) ++ (combineBlocks n (din.drop 64) (advanceCounter c)).1,
        (combineBlocks n (din.drop 64) (advanceCounter c)).2) := rfl

/-- PROCESS keeps both initialization flags (R28). -/
theorem combineBlocks_flags (n : Nat) (din : List Byte) (c : Slot) :
    (combineBlocks n din c).2.keyValid = c.keyValid ∧ (combineBlocks n din c).2.ivValid = c.ivValid := by
  induction n generalizing din c with
  | zero => exact ⟨rfl, rfl⟩
  | succ n ih => simpa [combineBlocks_succ] using ih (din.drop 64) (advanceCounter c)

end Sys2Proof.Machine
end

