-- ==== Sys2Proof/Laws/Ops.lean ====
section
/-! SUPPORT. What each shared operation can do, said once: finding a slot (R57), writing one (R22), the context check of
every command (R96), completing (R63), taking an event from the port (R64). -/

namespace Sys2Proof.Machine

open Host (Outcome)

theorem present_iff (s : State) (h : Handle) : present s h = true ↔ 1 ≤ h.toNat ∧ h.toNat ≤ s.nctx := by
  simp [present]

/-- A handle that is present names a slot, slot `h - 1`. -/
theorem slotAt_of_present {s : State} {h : Handle} (hp : 1 ≤ h.toNat ∧ h.toNat ≤ s.nctx) :
    ∃ hlt : h.toNat - 1 < s.slots.length, slotAt s h = some s.slots[h.toNat - 1] := by
  have hlt : h.toNat - 1 < s.slots.length := by unfold State.nctx at hp; omega
  exact ⟨hlt, by simp [slotAt, (present_iff s h).2 hp, List.getElem?_eq_getElem hlt]⟩

theorem slotAt_eq_none_iff (s : State) (h : Handle) :
    slotAt s h = none ↔ ¬ (1 ≤ h.toNat ∧ h.toNat ≤ s.nctx) := by
  constructor
  · intro hn hp
    obtain ⟨_, hs⟩ := slotAt_of_present hp
    simp [hs] at hn
  · intro hp
    have : present s h = false := by
      cases hb : present s h
      · rfl
      · exact absurd ((present_iff s h).1 hb) hp
    simp [slotAt, this]

theorem present_of_slotAt {s : State} {h : Handle} {c : Slot} (hc : slotAt s h = some c) :
    1 ≤ h.toNat ∧ h.toNat ≤ s.nctx := by
  by_contra hp
  simp [(slotAt_eq_none_iff s h).2 hp] at hc

theorem slotAt_mem {s : State} {h : Handle} {c : Slot} (hc : slotAt s h = some c) : c ∈ s.slots := by
  obtain ⟨hlt, hs⟩ := slotAt_of_present (present_of_slotAt hc)
  rw [hs] at hc
  exact Option.some.inj hc ▸ List.getElem_mem hlt

/-- Only the slots and their number decide what a handle names. -/
theorem slotAt_congr {s t : State} (hs : t.slots = s.slots) (h : Handle) : slotAt t h = slotAt s h := by
  unfold slotAt present State.nctx
  rw [hs]

@[simp] theorem slotAt_complete (code : StatusCode) (dout : List Byte) (s : State) (h : Handle) :
    slotAt (complete code dout s) h = slotAt s h := slotAt_congr rfl h

theorem slotAt_setSlot_same {s : State} {h : Handle} {c : Slot} (hc : slotAt s h = some c) (c' : Slot) :
    slotAt (setSlot h c' s) h = some c' := by
  have hp := present_of_slotAt hc
  have hlt : h.toNat - 1 < s.slots.length := by unfold State.nctx at hp; omega
  have hp' : present (setSlot h c' s) h = true := by simp [present, hp]
  simp [slotAt, hp', hlt]

theorem slotAt_setSlot_other {s : State} {h h' : Handle} {c : Slot} (hc : slotAt s h = some c) (c' : Slot)
    (hne : h' ≠ h) : slotAt (setSlot h c' s) h' = slotAt s h' := by
  have hp := present_of_slotAt hc
  by_cases hq : 1 ≤ h'.toNat
  · have : h.toNat - 1 ≠ h'.toNat - 1 := by
      intro he
      exact hne (BitVec.eq_of_toNat_eq (by omega))
    simp [slotAt, present, List.getElem?_set_ne this]
  · simp [slotAt, present, hq]

/-- The context check: an absent handle completes with NULL_CONTEXT, a present one runs the body on its slot. -/
theorem onSlot_absent {s : State} {h : Handle} {body : Slot → Outcome State Fault Refusal}
    (hc : slotAt s h = none) : onSlot h s body = .next (complete .nullContext [] s) := by
  simp [onSlot, hc]

theorem onSlot_present {s : State} {h : Handle} {c : Slot} {body : Slot → Outcome State Fault Refusal}
    (hc : slotAt s h = some c) : onSlot h s body = body c := by
  simp [onSlot, hc]

/-- Everything a step can do with the port (R64). -/
theorem step_idle {s : State} (hp : s.port = []) : step s = .next s := by
  simp [step, takeEvent, hp]

theorem step_reset {s : State} {rest : List PortEvent} (hp : s.port = .reset :: rest) :
    step s = .next (applyReset { s with port := rest }) := by
  simp [step, takeEvent, hp]

theorem step_faulted {s : State} {t : Transaction} {rest : List PortEvent} {r : Fault}
    (hp : s.port = .command t :: rest) (hf : s.faulted = some r) : step s = .fault r := by
  simp [step, takeEvent, hp, hf]

theorem step_refused {s : State} {t : Transaction} {rest : List PortEvent} {r : Refusal}
    (hp : s.port = .command t :: rest) (hf : s.faulted = none) (hr : s.refused = some r) :
    step s = .refused r := by
  simp [step, takeEvent, hp, hf, hr]

theorem step_undecoded {s : State} {t : Transaction} {rest : List PortEvent} {e : DecodeError}
    (hp : s.port = .command t :: rest) (hf : s.faulted = none) (hr : s.refused = none)
    (hd : decode t = .error e) : step s = .refused (refusalOf e) := by
  simp [step, takeEvent, hp, hf, hr, hd]

end Sys2Proof.Machine
end

