-- ==== Sys2Proof/Laws/Exec.lean ====
section
/-! SUPPORT. Everything each meaning can do, one lemma a command, in the order of the checks of R103. -/

namespace Sys2Proof.Machine

open Host (Outcome)

/-- SETKEY (R67). -/
theorem execSetkey_cases (h : Handle) (ksz : Word) (k : List Byte) (s : State) :
    (k.length ≠ 32 ∧ execSetkey h ksz k s = .refused .malformedTransaction) ∨
    (k.length = 32 ∧ slotAt s h = none ∧ execSetkey h ksz k s = .next (complete .nullContext [] s)) ∨
    (∃ c, k.length = 32 ∧ slotAt s h = some c ∧ (ksz ≠ 16 ∧ ksz ≠ 32) ∧
      execSetkey h ksz k s = .next (complete .invalidKeySize [] s)) ∨
    (∃ c, k.length = 32 ∧ slotAt s h = some c ∧ (ksz = 16 ∨ ksz = 32) ∧
      execSetkey h ksz k s = .next (complete .ok [] (setSlot h (loadKey s.constants ksz k c) s))) := by
  by_cases hk : k.length = 32
  · cases hc : slotAt s h with
    | none => exact .inr (.inl ⟨hk, rfl, by simp [execSetkey, hk, onSlot_absent hc]⟩)
    | some c =>
      by_cases hz : ksz ≠ 16 ∧ ksz ≠ 32
      · exact .inr (.inr (.inl ⟨c, hk, rfl, hz, by
          rw [execSetkey, if_neg (not_not.2 hk), onSlot_present hc, if_pos hz]⟩))
      · exact .inr (.inr (.inr ⟨c, hk, rfl, by tauto, by
          rw [execSetkey, if_neg (not_not.2 hk), onSlot_present hc, if_neg hz]⟩))
  · exact .inl ⟨hk, by simp [execSetkey, hk]⟩

/-- SETIV (R70). -/
theorem execSetiv_cases (h : Handle) (n : List Byte) (ctr : Word) (s : State) :
    (n.length ≠ 12 ∧ execSetiv h n ctr s = .refused .malformedTransaction) ∨
    (n.length = 12 ∧ slotAt s h = none ∧ execSetiv h n ctr s = .next (complete .nullContext [] s)) ∨
    (∃ c, n.length = 12 ∧ slotAt s h = some c ∧
      execSetiv h n ctr s = .next (complete .ok [] (setSlot h (loadIv n ctr c) s))) := by
  by_cases hn : n.length = 12
  · cases hc : slotAt s h with
    | none => exact .inr (.inl ⟨hn, rfl, by simp [execSetiv, hn, onSlot_absent hc]⟩)
    | some c => exact .inr (.inr ⟨c, hn, rfl, by simp [execSetiv, hn, onSlot_present hc]⟩)
  · exact .inl ⟨hn, by simp [execSetiv, hn]⟩

/-- PROCESS (R88, R89). -/
theorem execProcess_cases (h : Handle) (len : Word) (din : List Byte) (s : State) :
    (din.length ≠ len.toNat ∧ execProcess h len din s = .refused .malformedTransaction) ∨
    (din.length = len.toNat ∧ slotAt s h = none ∧
      execProcess h len din s = .next (complete .nullContext [] s)) ∨
    (∃ c, din.length = len.toNat ∧ slotAt s h = some c ∧ len = 0 ∧
      execProcess h len din s = .next (complete .ok [] s)) ∨
    (∃ c, din.length = len.toNat ∧ slotAt s h = some c ∧ len ≠ 0 ∧ ready c = false ∧
      execProcess h len din s = .fault .uninitializedState) ∨
    (∃ c, din.length = len.toNat ∧ slotAt s h = some c ∧ len ≠ 0 ∧ ready c = true ∧
      execProcess h len din s = .next (complete .ok (combineBlocks (blockCount len) din c).1
        (setSlot h (combineBlocks (blockCount len) din c).2 s))) := by
  by_cases hd : din.length = len.toNat
  · cases hc : slotAt s h with
    | none => exact .inr (.inl ⟨hd, rfl, by simp [execProcess, hd, onSlot_absent hc]⟩)
    | some c =>
      by_cases hz : len = 0
      · exact .inr (.inr (.inl ⟨c, hd, rfl, hz, by simp [execProcess, hd, onSlot_present hc, hz]⟩))
      · cases hr : ready c with
        | false =>
          exact .inr (.inr (.inr (.inl ⟨c, hd, rfl, hz, hr, by
            rw [execProcess, if_neg (not_not.2 hd), onSlot_present hc, if_neg hz, hr]
            rfl⟩)))
        | true =>
          exact .inr (.inr (.inr (.inr ⟨c, hd, rfl, hz, hr, by
            rw [execProcess, if_neg (not_not.2 hd), onSlot_present hc, if_neg hz, hr]
            rfl⟩)))
  · exact .inl ⟨hd, by simp [execProcess, hd]⟩

/-- GENBLOCK (R84). -/
theorem execGenblock_cases (h : Handle) (s : State) :
    (slotAt s h = none ∧ execGenblock h s = .next (complete .nullContext [] s)) ∨
    (∃ c, slotAt s h = some c ∧ ready c = false ∧ execGenblock h s = .fault .uninitializedState) ∨
    (∃ c, slotAt s h = some c ∧ ready c = true ∧
      execGenblock h s = .next (complete .ok (blockTransform c.words) (setSlot h (advanceCounter c) s))) := by
  cases hc : slotAt s h with
  | none => exact .inl ⟨rfl, by simp [execGenblock, onSlot_absent hc]⟩
  | some c =>
    cases hr : ready c with
    | false => exact .inr (.inl ⟨c, rfl, hr, by simp [execGenblock, onSlot_present hc, hr]⟩)
    | true => exact .inr (.inr ⟨c, rfl, hr, by simp [execGenblock, onSlot_present hc, hr, generateBlock]⟩)

end Sys2Proof.Machine
end

