-- ==== Sys2Proof/Laws/PerInstr.lean ====
section
/-! SUPPORT. Per-instruction statements, one lemma per constructor of `Instr`. -/

namespace Sys2Proof.Laws.EncodedFields

/-- The command word a command is encoded to has RSVD 0 and the command's handle as its CTX (R55, R65). -/
def Statement (i : Instr) : Prop := rsvdField (encode i).cw = 0 ∧ ctxField (encode i).cw = i.handle

theorem fields_of_commandWord (op : Fin 16) (h : Handle) :
    rsvdField (commandWord (BitVec.ofNat 32 op.val) h) = 0 ∧ ctxField (commandWord (BitVec.ofNat 32 op.val) h) = h := by
  revert op h
  decide +kernel

theorem setkey (h : Handle) (ksz : Word) (k : List Byte) : Statement (.setkey h ksz k) := fields_of_commandWord 1 h
theorem setiv (h : Handle) (n : List Byte) (ctr : Word) : Statement (.setiv h n ctr) := fields_of_commandWord 2 h
theorem process (h : Handle) (len : Word) (din : List Byte) : Statement (.process h len din) :=
  fields_of_commandWord 3 h
theorem genblock (h : Handle) : Statement (.genblock h) := fields_of_commandWord 4 h

end Sys2Proof.Laws.EncodedFields
end

