-- ==== Sys2Proof/Laws/TextForm.lean ====
section
/-! SUPPORT. Each reader of the assembler reads back what the writer of the same form wrote (R65). -/

namespace Sys2Proof.Machine

theorem hexDigit?_digitChar {d : Nat} (hd : d < 16) : hexDigit? (digitChar d) = some d := by
  have : ∀ d : Fin 16, hexDigit? (digitChar d.val) = some d.val := by decide
  exact this ⟨d, hd⟩

/-- A digit is no blank, no comma, no `x`, no double quote and none of the letters that begin `zeros` and `ascii(`. -/
theorem digitChar_ne {d : Nat} (hd : d < 16) :
    digitChar d ≠ ' ' ∧ digitChar d ≠ ',' ∧ digitChar d ≠ 'x' ∧ digitChar d ≠ 'z' ∧ digitChar d ≠ 's' ∧
    digitChar d ≠ Char.ofNat 34 := by
  have : ∀ d : Fin 16, digitChar d.val ≠ ' ' ∧ digitChar d.val ≠ ',' ∧ digitChar d.val ≠ 'x' ∧ digitChar d.val ≠ 'z' ∧
      digitChar d.val ≠ 's' ∧ digitChar d.val ≠ Char.ofNat 34 := by decide
  exact this ⟨d, hd⟩

/-- Every character of a written number is a digit below the base. -/
theorem digitsText_mem {base : Nat} (hb : 0 < base) (k : Nat) : ∀ (n : Nat), ∀ c ∈ digitsText base k n, ∃ d, d < base ∧ c = digitChar d := by
  induction k with
  | zero => intro n c hc; simp [digitsText] at hc
  | succ k ih =>
    intro n c hc
    unfold digitsText at hc
    split at hc
    · next h => exact ⟨n, h, by simpa using hc⟩
    · rcases List.mem_append.1 hc with h | h
      · exact ih _ c h
      · exact ⟨n % base, Nat.mod_lt _ hb, by simpa using h⟩

theorem digitsText_ne_nil (base k n : Nat) : digitsText base (k + 1) n ≠ [] := by
  unfold digitsText
  split <;> simp

theorem digitsFrom_append (base : Nat) (as bs : List Char) : ∀ acc,
    digitsFrom base acc (as ++ bs) = (digitsFrom base acc as).bind fun v => digitsFrom base v bs := by
  induction as with
  | nil => intro acc; rfl
  | cons c cs ih =>
    intro acc
    simp only [List.cons_append, digitsFrom]
    cases hexDigit? c with
    | none => rfl
    | some d => by_cases h : d < base <;> simp [h, ih]

/-- A number is read back from its digits. -/
theorem digitsFrom_digitsText {base : Nat} (hb : 1 < base ∧ base ≤ 16) (k : Nat) :
    ∀ n, n < k → digitsFrom base 0 (digitsText base k n) = some n := by
  induction k with
  | zero => intro n h; omega
  | succ k ih =>
    intro n h
    unfold digitsText
    split
    · next hn => simp [digitsFrom, hexDigit?_digitChar (show n < 16 by omega), hn]
    · next hn =>
      have h1 : n / base < k := by
        have : n / base < n := Nat.div_lt_self (by omega) hb.1
        omega
      have h2 : n % base < base := Nat.mod_lt _ (by omega)
      rw [digitsFrom_append, ih _ h1]
      simp only [Option.bind_some, digitsFrom, hexDigit?_digitChar (show n % base < 16 by omega), h2, if_true]
      rw [Nat.mul_comm, Nat.div_add_mod]

theorem decimal?_decimalText (n : Nat) : decimal? (decimalText n) = some n := by
  simp only [decimal?, decimalText, digitsText_ne_nil, if_false]
  exact digitsFrom_digitsText (by omega) _ n (by omega)

theorem handle?_handleText (h : Handle) : handle? (handleText h) = some h := by
  have := h.isLt
  simp [handle?, handleText, decimal?_decimalText, show h.toNat < 16 by omega]

theorem number?_numberForms {v : Word} {z : List Char} (hz : z ∈ numberForms v) : number? z = some v := by
  have hv := v.isLt
  simp only [numberForms, List.mem_cons, List.not_mem_nil, or_false] at hz
  rcases hz with rfl | rfl
  · have hne : ∀ ds, decimalText v.toNat ≠ '0' :: 'x' :: ds := by
      intro ds he
      obtain ⟨d, hd, hx⟩ := digitsText_mem (show 0 < 10 by omega) _ v.toNat 'x' (by
        rw [decimalText] at he
        rw [he]
        simp)
      exact (digitChar_ne (show d < 16 by omega)).2.2.1 hx.symm
    have : number? (decimalText v.toNat) =
        (decimal? (decimalText v.toNat)).bind fun n => if n < 2 ^ 32 then some (BitVec.ofNat 32 n) else none := by
      unfold number?
      split
      · next ds he => exact absurd he (hne ds)
      · rfl
    rw [this, decimal?_decimalText]
    simp only [Option.bind_some, if_pos hv, BitVec.ofNat_toNat, BitVec.setWidth_eq]
  · simp only [number?, digitsText_ne_nil, if_false, digitsFrom_digitsText (show 1 < 16 ∧ 16 ≤ 16 by omega) _ _ (Nat.lt_succ_self _)]
    simp only [Option.bind_some, if_pos hv, BitVec.ofNat_toNat, BitVec.setWidth_eq]

theorem hexPairs?_hexBytesText (b : List Byte) : hexPairs? (hexBytesText b) = some b := by
  induction b with
  | nil => rfl
  | cons x xs ih =>
    have hx := x.isLt
    have h16 : x.toNat / 16 < 16 := by omega
    show hexPairs? (digitChar (x.toNat / 16) :: digitChar (x.toNat % 16) :: hexBytesText xs) = _
    simp only [hexPairs?, hexDigit?_digitChar h16, hexDigit?_digitChar (Nat.mod_lt x.toNat (show 0 < 16 by omega)), ih,
      Nat.div_add_mod, BitVec.ofNat_toNat, BitVec.setWidth_eq]

/-- What stands between a front and a back is found again. -/
theorem between?_append (front back cs : List Char) : between? front back (front ++ cs ++ back) = some cs := by
  simp [between?]

/-- A text that begins otherwise has no such form. -/
theorem between?_none {f c : Char} {front back cs : List Char} (hne : c ≠ f) :
    between? (f :: front) back (c :: cs) = none := by
  simp [between?, hne]

theorem hexBytesText_cons {b : List Byte} (hb : b ≠ []) : ∃ d cs, d < 16 ∧ hexBytesText b = digitChar d :: cs := by
  cases b with
  | nil => exact absurd rfl hb
  | cons x xs => exact ⟨x.toNat / 16, _, by have := x.isLt; omega, rfl⟩

theorem hexBytes?_bytesForms {b : List Byte} {l : List Char} (hl : l ∈ bytesForms b) : hexBytes? l = some b := by
  rcases List.mem_append.1 hl with h | h
  · split at h
    · simp at h
    · next hb =>
      obtain rfl := List.mem_singleton.1 h
      obtain ⟨d, cs, hd, he⟩ := hexBytesText_cons hb
      have hn : between? ['z', 'e', 'r', 'o', 's', '('] [')'] (hexBytesText b) = none := by
        rw [he]; exact between?_none (digitChar_ne hd).2.2.2.1
      have hne : hexBytesText b ≠ [] := by rw [he]; simp
      simp only [hexBytes?, hn, hne, if_false, hexPairs?_hexBytesText]
  · split at h
    · next hb =>
      obtain rfl := List.mem_singleton.1 h
      simp only [hexBytes?, zerosText, between?_append, decimal?_decimalText, Option.map_some]
      rw [← hb]
    · simp at h

theorem asciiBytes?_map {b : List Byte} (hb : ∀ x ∈ b, x.toNat < 128) :
    asciiBytes? (b.map fun x => Char.ofNat x.toNat) = some b := by
  have hc : ∀ x ∈ b, (Char.ofNat x.toNat).toNat = x.toNat := by
    intro x hx
    have : ∀ n : Fin 128, (Char.ofNat n.val).toNat = n.val := by decide +kernel
    exact this ⟨x.toNat, hb x hx⟩
  have h1 : (b.map fun x => Char.ofNat x.toNat).all (fun c => decide (c.toNat < 128)) = true := by
    simp only [List.all_eq_true, List.mem_map, decide_eq_true_eq]
    rintro _ ⟨x, hx, rfl⟩
    rw [hc x hx]
    exact hb x hx
  have h2 : (b.map fun x => Char.ofNat x.toNat).map (fun c => (BitVec.ofNat 8 c.toNat : Byte)) = b := by
    rw [List.map_map]
    conv_rhs => rw [← List.map_id b]
    apply List.map_congr_left
    intro x hx
    simp only [Function.comp, hc x hx, id, BitVec.ofNat_toNat, BitVec.setWidth_eq]
  rw [asciiBytes?, if_pos h1, h2]

theorem hexBytesText_mem (b : List Byte) : ∀ c ∈ hexBytesText b, ∃ d, d < 16 ∧ c = digitChar d := by
  intro c hc
  simp only [hexBytesText, List.mem_flatMap, List.mem_cons, List.not_mem_nil, or_false] at hc
  obtain ⟨x, -, rfl | rfl⟩ := hc
  · exact ⟨x.toNat / 16, by have := x.isLt; omega, rfl⟩
  · exact ⟨x.toNat % 16, by omega, rfl⟩

/-- A text without some character of the front has no such form. -/
theorem between?_none_of_not_mem {x : Char} {front back cs : List Char} (hx : x ∈ front) (hn : x ∉ cs) :
    between? front back cs = none := by
  simp only [between?]
  split
  · next h =>
    rw [h] at hn
    exact absurd (by simp [hx]) hn
  · rfl

theorem data?_dataForms {b : List Byte} {l : List Char} (hl : l ∈ dataForms b) : data? l = some b := by
  rcases List.mem_append.1 hl with h | h
  · rcases List.mem_append.1 h with h | h
    · have hb := hexBytes?_bytesForms h
      have hq : l ≠ [quoteChar, quoteChar] := by rintro rfl; exact absurd hb (by simp [hexBytes?, between?, hexPairs?, quoteChar, hexDigit?])
      have hn : between? ['a', 's', 'c', 'i', 'i', '(', quoteChar] [quoteChar, ')'] l = none := by
        rcases List.mem_append.1 h with h | h
        · split at h
          · simp at h
          · obtain rfl := List.mem_singleton.1 h
            refine between?_none_of_not_mem (x := 's') (by simp) ?_
            intro hm
            obtain ⟨d, hd, hc⟩ := hexBytesText_mem b _ hm
            exact (digitChar_ne hd).2.2.2.2.1 hc.symm
        · split at h
          · obtain rfl := List.mem_singleton.1 h
            exact between?_none (by decide)
          · simp at h
      rw [data?, if_neg hq, hn]
      exact hb
    · split at h
      · next hb =>
        obtain rfl := List.mem_singleton.1 h
        rw [hb]
        rfl
      · simp at h
  · split at h
    · next hb =>
      obtain rfl := List.mem_singleton.1 h
      have hq : asciiText b ≠ [quoteChar, quoteChar] := by
        intro he
        exact absurd (congrArg List.head? he) (by simp [asciiText, quoteChar])
      have hf : between? ['a', 's', 'c', 'i', 'i', '(', quoteChar] [quoteChar, ')'] (asciiText b) =
          some (b.map fun x => Char.ofNat x.toNat) := between?_append _ _ _
      rw [data?, if_neg hq, hf]
      exact asciiBytes?_map fun x hx => by simpa using List.all_eq_true.1 hb x hx
    · simp at h

/-! ### Splitting and trimming a line -/

theorem splitAtChar_append {sep : Char} {as : List Char} (bs : List Char) (hs : sep ∉ as) :
    splitAtChar sep (as ++ sep :: bs) = some (as, bs) := by
  induction as with
  | nil => simp [splitAtChar]
  | cons c cs ih =>
    simp only [List.mem_cons, not_or] at hs
    simp [splitAtChar, Ne.symm hs.1, ih hs.2]

/-- A text with no blank at either end. -/
abbrev Tight (cs : List Char) : Prop := cs ≠ [] ∧ cs.head? ≠ some ' ' ∧ cs.getLast? ≠ some ' '

theorem skipBlanks_eq {cs : List Char} (h : cs.head? ≠ some ' ') : skipBlanks cs = cs := by
  unfold skipBlanks
  split
  · simp at h
  · rfl

theorem trimBlanks_tight {cs : List Char} (h : Tight cs) : trimBlanks cs = cs := by
  rw [trimBlanks, skipBlanks_eq h.2.1, skipBlanks_eq (by rw [List.head?_reverse]; exact h.2.2), List.reverse_reverse]

theorem trimBlanks_blank_tight {cs : List Char} (h : Tight cs) : trimBlanks (' ' :: cs) = cs := by
  have : trimBlanks (' ' :: cs) = trimBlanks cs := rfl
  rw [this, trimBlanks_tight h]

theorem tight_of_not_mem {cs : List Char} (hn : cs ≠ []) (hm : ' ' ∉ cs) : Tight cs :=
  ⟨hn, fun h => hm (List.mem_of_mem_head? h), fun h => hm (List.mem_of_mem_getLast? h)⟩

/-- No written number, handle or byte string has a blank or a comma. -/
theorem decimalText_clean (n : Nat) : ' ' ∉ decimalText n ∧ ',' ∉ decimalText n := by
  constructor <;> intro hm <;> obtain ⟨d, hd, hc⟩ := digitsText_mem (show 0 < 10 by omega) _ _ _ hm
  · exact (digitChar_ne (show d < 16 by omega)).1 hc.symm
  · exact (digitChar_ne (show d < 16 by omega)).2.1 hc.symm

theorem handleText_clean (h : Handle) : Tight (handleText h) ∧ ',' ∉ handleText h := by
  have hc := decimalText_clean h.toNat
  exact ⟨tight_of_not_mem (by simp [handleText]) (by simp [handleText, hc.1]), by simp [handleText, hc.2]⟩

theorem numberForms_clean {v : Word} {z : List Char} (hz : z ∈ numberForms v) : Tight z ∧ ',' ∉ z := by
  simp only [numberForms, List.mem_cons, List.not_mem_nil, or_false] at hz
  rcases hz with rfl | rfl
  · exact ⟨tight_of_not_mem (digitsText_ne_nil _ _ _) (decimalText_clean _).1, (decimalText_clean _).2⟩
  · have hd : ∀ c ∈ digitsText 16 (v.toNat + 1) v.toNat, c ≠ ' ' ∧ c ≠ ',' := by
      intro c hc
      obtain ⟨d, hd, rfl⟩ := digitsText_mem (show 0 < 16 by omega) _ _ _ hc
      exact ⟨(digitChar_ne hd).1, (digitChar_ne hd).2.1⟩
    refine ⟨tight_of_not_mem (by simp) ?_, ?_⟩
    · simp only [List.mem_cons, not_or]
      exact ⟨by decide, by decide, fun hm => (hd _ hm).1 rfl⟩
    · simp only [List.mem_cons, not_or]
      exact ⟨by decide, by decide, fun hm => (hd _ hm).2 rfl⟩

theorem bytesForms_clean {b : List Byte} {l : List Char} (hl : l ∈ bytesForms b) : Tight l ∧ ',' ∉ l := by
  rcases List.mem_append.1 hl with h | h
  · split at h
    · simp at h
    · next hb =>
      obtain rfl := List.mem_singleton.1 h
      have hd : ∀ c ∈ hexBytesText b, c ≠ ' ' ∧ c ≠ ',' := by
        intro c hc
        obtain ⟨d, hd, rfl⟩ := hexBytesText_mem b c hc
        exact ⟨(digitChar_ne hd).1, (digitChar_ne hd).2.1⟩
      obtain ⟨d, cs, -, he⟩ := hexBytesText_cons hb
      exact ⟨tight_of_not_mem (by rw [he]; simp) fun hm => (hd _ hm).1 rfl, fun hm => (hd _ hm).2 rfl⟩
  · split at h
    · obtain rfl := List.mem_singleton.1 h
      have hc := decimalText_clean b.length
      exact ⟨tight_of_not_mem (by simp [zerosText]) (by simp [zerosText, hc.1]), by simp [zerosText, hc.2]⟩
    · simp at h

theorem dataForms_tight {b : List Byte} {l : List Char} (hl : l ∈ dataForms b) : Tight l := by
  rcases List.mem_append.1 hl with h | h
  · rcases List.mem_append.1 h with h | h
    · exact (bytesForms_clean h).1
    · split at h
      · obtain rfl := List.mem_singleton.1 h
        decide
      · simp at h
  · split at h
    · obtain rfl := List.mem_singleton.1 h
      refine ⟨by simp [asciiText], by simp [asciiText], ?_⟩
      have : asciiText b = (['a', 's', 'c', 'i', 'i', '(', Char.ofNat 34] ++ b.map (fun x => Char.ofNat x.toNat) ++
          [Char.ofNat 34]) ++ [')'] := by simp [asciiText]
      rw [this, List.getLast?_append]
      simp
    · simp at h

end Sys2Proof.Machine
end

