-- ==== Sys2Proof/Tests/Slice0.lean ====
section
/-! SUPPORT. The model's own tests: expected values are the spec's vectors (95_test_vectors.md, the id in each comment) or are
written out by hand from its encodings; and, for every statement with hypotheses, a concrete case that meets them. -/

namespace Sys2Proof.Tests

open Sys2Proof Sys2Proof.Machine

-- One theorem after the other: the kernel's evaluations take little memory that way.
set_option Elab.async false

/-! ### A small state and ways to look at an outcome -/

/-- `K00`, the key 00 01 02 ... 1f of 95_test_vectors.md. -/
def key00 : List Byte := (List.range 32).map (BitVec.ofNat 8)

/-- The 16-byte key of SK-2, filled up as the text form fills it (R65). -/
def key16 : List Byte := key00.take 16 ++ List.replicate 16 0

/-- Setup Z of 95_test_vectors.md §5: zero key, zero nonce, the given counter. -/
def zSlot (ctr : Word) : Slot where
  words := #v[0x61707865, 0x3320646e, 0x79622d32, 0x6b206574, 0, 0, 0, 0, 0, 0, 0, 0, ctr, 0, 0, 0]
  keyValid := true
  ivValid := true

/-- A slot with a key and no IV. -/
def keyedSlot : Slot := { zSlot 0 with ivValid := false }

/-- Two slots: c1 is set up with the counter `ctr`, c2 is as after reset; c0 and c3 to c15 name no slot. -/
def demo (ctr : Word) (port : List PortEvent) : State :=
  { State.reset with slots := [zSlot ctr, Slot.reset], port := port }

def nextOf : Host.Outcome State Fault Refusal → Option State
  | .next s => some s
  | .fault _ => none
  | .refused _ => none

def faultOf : Host.Outcome State Fault Refusal → Option Fault
  | .next _ => none
  | .fault r => some r
  | .refused _ => none

def refusedOf : Host.Outcome State Fault Refusal → Option Refusal
  | .next _ => none
  | .fault _ => none
  | .refused r => some r

def statusOf (o : Host.Outcome State Fault Refusal) : Option (BitVec 8) := (nextOf o).map State.status

def doutOf (o : Host.Outcome State Fault Refusal) : Option (List Byte) :=
  ((nextOf o).bind fun s => s.responses.getLast?).map Response.dout

def wordsOf (o : Host.Outcome State Fault Refusal) (h : Handle) : Option (List Word) :=
  ((nextOf o).bind fun s => slotAt s h).map fun c => c.words.toList

/-! ### WellFormed: the shape R60 asks for, and a term each check refuses -/

theorem test_wf_setkey : (Instr.setkey 1 32 key00).wellFormed = true ∧
    (Instr.setkey 1 32 (key00.take 31)).wellFormed = false ∧ (Instr.setkey 1 16 (key00 ++ [0])).wellFormed = false := by
  decide

theorem test_wf_setiv : (Instr.setiv 1 (List.replicate 12 0) 0).wellFormed = true ∧
    (Instr.setiv 1 (List.replicate 11 0) 0).wellFormed = false ∧
    (Instr.setiv 1 (List.replicate 13 0) 0).wellFormed = false := by
  decide

theorem test_wf_process : (Instr.process 1 4 [0, 0, 0, 0]).wellFormed = true ∧ (Instr.process 1 0 []).wellFormed = true ∧
    (Instr.process 1 5 [0, 0, 0, 0]).wellFormed = false ∧ (Instr.process 1 0 [0]).wellFormed = false := by
  decide

/-- GENBLOCK has no operand: its shape is checked on the transaction (RF-8). -/
theorem test_wf_genblock : (Instr.genblock 1).wellFormed = true ∧
    transactionWellFormed ⟨0x14, .empty⟩ = true ∧ transactionWellFormed ⟨0x14, .dataBlock 0 []⟩ = false := by
  decide

/-! ### Decoding: command words written out bit by bit (R55, R56) -/

theorem test_decode_setkey : decode ⟨0b0000_0000_0000_0000_0000_0000_0010_0001, .keyBlock 32 key00⟩ =
    .ok (.setkey 2 32 key00) := by rfl

theorem test_decode_setiv : decode ⟨0b0000_0000_0000_0000_0000_0000_1111_0010, .ivBlock (List.replicate 12 7) 9⟩ =
    .ok (.setiv 15 (List.replicate 12 7) 9) := by rfl

theorem test_decode_process : decode ⟨0b0000_0000_0000_0000_0000_0000_0001_0011, .dataBlock 2 [1, 2]⟩ =
    .ok (.process 1 2 [1, 2]) := by rfl

theorem test_decode_genblock : decode ⟨0b0000_0000_0000_0000_0000_0000_1000_0100, .empty⟩ = .ok (.genblock 8) := by rfl

/-- The encoder writes the same words (R65). -/
theorem test_encode : (encode (.setkey 2 32 key00)).cw = 0x00000021 ∧ (encode (.setiv 15 [] 0)).cw = 0x000000F2 ∧
    (encode (.process 1 0 [])).cw = 0x00000013 ∧ (encode (.genblock 8)).cw = 0x00000084 := by decide

/-- RF-1 to RF-4 and RF-9 are reserved words, and RF-8 a wrong operand block. -/
theorem test_decode_refuses : decode ⟨0x00000010, .empty⟩ = .error .reservedEncoding ∧
    decode ⟨0x00000015, .empty⟩ = .error .reservedEncoding ∧ decode ⟨0x0000001F, .empty⟩ = .error .reservedEncoding ∧
    decode ⟨0x00000114, .empty⟩ = .error .reservedEncoding ∧
    decode ⟨0x00000101, .keyBlock 32 key00⟩ = .error .reservedEncoding ∧
    decode ⟨0x00000014, .keyBlock 32 key00⟩ = .error .malformedTransaction := ⟨rfl, rfl, rfl, rfl, rfl, rfl⟩

/-- The highest bit of RSVD alone makes a word reserved. -/
theorem test_decode_rsvd_top : decode ⟨0x80000004, .empty⟩ = .error .reservedEncoding := by rfl

theorem test_table_words : decodeTableWord 32 0x11 = some (.setkey 1 0 (List.replicate 32 0)) ∧
    decodeTableWord 32 0x12 = some (.setiv 1 (List.replicate 12 0) 0) ∧
    decodeTableWord 32 0x13 = some (.process 1 0 []) ∧ decodeTableWord 32 0x14 = some (.genblock 1) ∧
    decodeTableWord 32 0x15 = none ∧ decodeTableWord 16 0x14 = none := by decide

/-- A table word placed at reset is what the next step runs: c1 is not set up there, so GENBLOCK faults, and c0 names no
slot. -/
theorem test_fetch_word : faultOf (step (State.reset.withFetchWord 32 0x14)) = some .uninitializedState ∧
    statusOf (step (State.reset.withFetchWord 32 0x04)) = some 1 ∧
    statusOf (step (State.reset.withFetchWord 32 0x11)) = some 2 ∧
    statusOf (step (State.reset.withFetchWord 32 0x12)) = some 0 ∧
    statusOf (step (State.reset.withFetchWord 32 0x13)) = some 0 ∧
    refusedOf (step (State.reset.withFetchWord 32 0x10)) = some .reservedEncoding := by decide +kernel

/-! ### Reset (R39, R115) -/

theorem test_reset : State.reset.slots.length = 2 ∧ State.reset.status = 0 ∧ State.reset.port = [] ∧
    observedWord Slot.reset 0 = none ∧ observedWord Slot.reset 15 = none := by decide

/-- The reset input clears the flags, STATUS and the marks, and keeps the number of slots. -/
theorem test_reset_input :
    (nextOf (step { demo 5 [.reset] with status := 2, faulted := some .uninitializedState })).map
      (fun s => (s.slots, s.status, s.faulted, s.port)) = some ([Slot.reset, Slot.reset], 0, none, []) := by decide

/-! ### SETKEY (R67) -/

/-- SK-1 and SK-2: the words of a 32-byte key and of a 16-byte key, the counter and nonce kept. -/
theorem test_setkey_words : wordsOf (exec (.setkey 1 32 key00) (demo 9 [])) 1 =
    some [0x61707865, 0x3320646e, 0x79622d32, 0x6b206574, 0x03020100, 0x07060504, 0x0b0a0908, 0x0f0e0d0c,
      0x13121110, 0x17161514, 0x1b1a1918, 0x1f1e1d1c, 9, 0, 0, 0] ∧
    wordsOf (exec (.setkey 1 16 key16) (demo 6 [])) 1 =
    some [0x61707865, 0x3120646e, 0x79622d36, 0x6b206574, 0x03020100, 0x07060504, 0x0b0a0908, 0x0f0e0d0c,
      0x03020100, 0x07060504, 0x0b0a0908, 0x0f0e0d0c, 6, 0, 0, 0] := by decide +kernel

/-- SK-4 and SK-5c: size 24 is STATUS 2 and no write, and on c0 the context check comes first. -/
theorem test_setkey_errors :
    (nextOf (exec (.setkey 1 24 key00) (demo 0 []))).map (fun s => (s.status, s.slots)) =
      some (2, [zSlot 0, Slot.reset]) ∧
    statusOf (exec (.setkey 0 7 key00) (demo 0 [])) = some 1 := by decide +kernel

/-! ### SETIV (R70) -/

/-- SI-2: nonce words are little-endian. -/
theorem test_setiv : wordsOf (exec (.setiv 2 [1, 2, 3, 4, 5, 6, 7, 8, 9, 10, 11, 12] 0xFFFFFFFF) (demo 0 [])) 2 =
    some [0, 0, 0, 0, 0, 0, 0, 0, 0, 0, 0, 0, 0xffffffff, 0x04030201, 0x08070605, 0x0c0b0a09] := by decide +kernel

/-- SI-1 and SI-3: IV_VALID alone is set, and c0 names no slot. -/
theorem test_setiv_flags :
    ((nextOf (exec (.setiv 2 (List.replicate 12 0) 0) (demo 0 []))).bind fun s => slotAt s 2).map
      (fun c => (c.keyValid, c.ivValid)) = some (false, true) ∧
    statusOf (exec (.setiv 0 (List.replicate 12 0) 0) (demo 0 [])) = some 1 := by decide +kernel

/-! ### The block transform (R74, R80) -/

/-- BT-1, at positions 0, 1, 2, 3. -/
theorem test_quarter_round : (quarterRound #v[0x11111111, 0x01020304, 0x9b8d6f43, 0x01234567, 0, 0, 0, 0, 0, 0, 0, 0, 0, 0,
    0, 0] 0 1 2 3).toList.take 4 = [0xea2a92f4, 0xcb1cf8ce, 0x4581472e, 0x5881c4bb] := by decide +kernel

/-- BT-4, the words after the ten double rounds and before the feed-forward. -/
theorem test_double_rounds : (doubleRounds 10 #v[0x61707865, 0x3320646e, 0x79622d32, 0x6b206574, 0x03020100, 0x07060504,
    0x0b0a0908, 0x0f0e0d0c, 0x13121110, 0x17161514, 0x1b1a1918, 0x1f1e1d1c, 1, 0x09000000, 0x4a000000, 0]).toList =
    [0x837778ab, 0xe238d763, 0xa67ae21e, 0x5950bb2f, 0xc4f2d0c7, 0xfc62bb2f, 0x8fa018fc, 0x3f5ec7b7,
      0x335271c2, 0xf29489f3, 0xeabda8fc, 0x82e46ebd, 0xd19c12b4, 0xb04e16de, 0x9e83d0cb, 0x4e3c50a2] := by decide +kernel

/-! ### GENBLOCK (R84) -/

/-- SG-1: the block BT-2, serialised. -/
theorem test_genblock : doutOf (exec (.genblock 1) (demo 0 [])) = some
    [0x76, 0xb8, 0xe0, 0xad, 0xa0, 0xf1, 0x3d, 0x90, 0x40, 0x5d, 0x6a, 0xe5, 0x53, 0x86, 0xbd, 0x28,
      0xbd, 0xd2, 0x19, 0xb8, 0xa0, 0x8d, 0xed, 0x1a, 0xa8, 0x36, 0xef, 0xcc, 0x8b, 0x77, 0x0d, 0xc7,
      0xda, 0x41, 0x59, 0x7c, 0x51, 0x57, 0x48, 0x8d, 0x77, 0x24, 0xe0, 0x3f, 0xb8, 0xd8, 0x4a, 0x37,
      0x6a, 0x43, 0xb8, 0xf4, 0x15, 0x18, 0xa1, 0x1c, 0xc3, 0x87, 0xb6, 0x69, 0xb2, 0xee, 0x65, 0x86] := by
  decide +kernel

/-- SG-2, SG-3, SG-4 and SG-5: the counter wraps to 0 and the status is OK; no key or no IV faults; c3 names no slot. -/
theorem test_genblock_edges :
    (nextOf (exec (.genblock 1) (demo 0xFFFFFFFF []))).map (fun s => (s.status, s.slots)) =
      some (0, [zSlot 0, Slot.reset]) ∧
    faultOf (exec (.genblock 2) (demo 0 [])) = some .uninitializedState ∧
    faultOf (exec (.genblock 1) { demo 0 [] with slots := [keyedSlot] }) = some .uninitializedState ∧
    statusOf (exec (.genblock 3) (demo 0 [])) = some 1 := by decide +kernel

/-! ### PROCESS (R88) -/

/-- XC-5: 65 bytes of ff use two blocks; the 65th byte is ff ^ 9f (BT-3 byte 0), and the counter ends at 2. -/
theorem test_process_65 :
    (doutOf (exec (.process 1 65 (List.replicate 65 0xff)) (demo 0 []))).map
      (fun d => (d.length, d.take 4, d.drop 60)) =
      some (65, [0x89, 0x47, 0x1f, 0x52], [0x4d, 0x11, 0x9a, 0x79, 0x60]) ∧
    (wordsOf (exec (.process 1 65 (List.replicate 65 0xff)) (demo 0 [])) 1).map (fun w => w.getD 12 7) = some 2 := by
  decide +kernel

/-- XC-1a, XC-10, XC-11 and RF-5: no bytes on an empty slot, an absent slot, a slot without a key, a wrong length. -/
theorem test_process_edges :
    (nextOf (exec (.process 2 0 []) (demo 0 []))).map (fun s => (s.status, s.slots)) =
      some (0, [zSlot 0, Slot.reset]) ∧
    statusOf (exec (.process 3 0 []) (demo 0 [])) = some 1 ∧
    faultOf (exec (.process 2 1 [0]) (demo 0 [])) = some .uninitializedState ∧
    refusedOf (exec (.process 1 5 [0, 0, 0, 0]) (demo 0 [])) = some .malformedTransaction := by decide +kernel

/-! ### Steps and marks (R31, R64) -/

/-- P4: after the fault the next transaction is not executed. -/
theorem test_marks_stick :
    (advance (demo 0 [.command ⟨0x24, .empty⟩])).faulted = some .uninitializedState ∧
    faultOf (step (advance (demo 0 [.command ⟨0x24, .empty⟩, .command ⟨0x12, .ivBlock (List.replicate 12 0) 0⟩]))) =
      some .uninitializedState := by decide +kernel

/-- Nothing presented: nothing happens. -/
theorem test_idle : nextOf (step State.reset) = some State.reset := by decide

/-! ### Text form (R65) -/

theorem test_assemble :
    assembleLine "setkey c1, 16, 000102030405060708090a0b0c0d0e0f" = some ⟨0x11, .keyBlock 16 key16⟩ ∧
    assembleLine "setiv c2, zeros(12), 0xFFFFFFFE" = some ⟨0x22, .ivBlock (List.replicate 12 0) 0xFFFFFFFE⟩ ∧
    assembleLine "genblock c15" = some ⟨0xF4, .empty⟩ := by decide +kernel

theorem test_assemble_process :
    assembleLine "process c1, ascii(\"Hi, A\")" = some ⟨0x13, .dataBlock 5 [0x48, 0x69, 0x2c, 0x20, 0x41]⟩ ∧
    assembleLine "process c1, \"\"" = some ⟨0x13, .dataBlock 0 []⟩ ∧
    assembleLine "process c0, 00000000" = some ⟨0x03, .dataBlock 4 [0, 0, 0, 0]⟩ ∧
    assembleLine "process c16, 00" = none ∧ assembleLine "process c1, 000" = none := by decide +kernel

/-! ### Witnesses: a concrete case that meets the hypotheses of each statement, clause by clause -/

/-- c1 and c2 are present at NCTX = 2; c0, c3 and c15 are not. -/
theorem witness_handles : present (demo 0 []) 1 = true ∧ present (demo 0 []) 2 = true ∧ present (demo 0 []) 0 = false ∧
    present (demo 0 []) 3 = false ∧ present (demo 0 []) 15 = false ∧ slotAt (demo 0 []) 1 = some (zSlot 0) ∧
    slotAt (demo 0 []) 2 = some Slot.reset := by decide

theorem witness_ConversionsAreLittleEndian : 0 + 3 < [1, 2, 3, 4].length ∧ 5 + 3 < (List.replicate 9 (0 : Byte)).length ∧
    ([] : List Byte).length = 4 * 0 ∧ (List.replicate 8 (0 : Byte)).length = 4 * 2 := by decide

theorem witness_SerializeAndWordsLeAreInverse : ([] : List Byte).length = 4 * 0 ∧ [9, 8, 7, (6 : Byte)].length = 4 * 1 := by
  decide

theorem witness_WordOperationsFollowTheirLaws : ((7 = 16 ∨ 7 = 12 ∨ 7 = 8 ∨ 7 = 7) ∧ 0 < 32) ∧
    ((16 = 16 ∨ 16 = 12 ∨ 16 = 8 ∨ 16 = 7) ∧ 31 < 32) ∧ (rotl32 0x80000001 7) = 0x000000C0 := by decide

theorem witness_ResetLeavesNoValueAndClearsFlags : Slot.reset ∈ (State.resetOf Config.standard).slots := by decide

theorem witness_ResetInputClearsEverySlot :
    { demo 5 [.reset] with faulted := some .uninitializedState }.port = .reset :: [] ∧
    (demo 5 [.reset, .command ⟨0x14, .empty⟩]).port = .reset :: [.command ⟨0x14, .empty⟩] := by decide

theorem witness_ConfigurationNeverChanges : ∃ t, exec (.genblock 0) (demo 0 []) = .next t ∧ t.status = 1 :=
  ⟨_, rfl, rfl⟩

theorem witness_DecodeOfEncodeIsTheCommand : (Instr.setkey 0 0xFFFFFFFF key00).wellFormed = true ∧
    (Instr.setiv 15 (List.replicate 12 1) 0).wellFormed = true ∧ (Instr.process 15 0 []).wellFormed = true ∧
    (Instr.genblock 15).wellFormed = true := by decide

theorem witness_EncodeOfDecodeIsTheTransaction : decode ⟨0x000000F4, .empty⟩ = .ok (.genblock 15) ∧
    decode ⟨0x00000003, .dataBlock 0 []⟩ = .ok (.process 0 0 []) := ⟨rfl, rfl⟩

/-- One word of each row, with CTX 0 and 15, and words on both sides of the rows. -/
theorem witness_CommandWordsMatchTheirTableRows : (0x00000001 : Word) &&& 0xFFFFFF0F = 0x00000001 ∧
    (0x000000F2 : Word) &&& 0xFFFFFF0F = 0x00000002 ∧ (0x000000F3 : Word) &&& 0xFFFFFF0F = 0x00000003 ∧
    (0x00000014 : Word) &&& 0xFFFFFF0F = 0x00000004 ∧ (0x00000105 : Word) &&& 0xFFFFFF0F = 0x00000105 := by decide

theorem witness_AbsentHandlesReturnNullContext :
    ((Instr.genblock 0).wellFormed = true ∧
      ¬ (1 ≤ (Instr.genblock 0).handle.toNat ∧ (Instr.genblock 0).handle.toNat ≤ (demo 0 []).nctx)) ∧
    ((Instr.process 3 0 []).wellFormed = true ∧
      ¬ (1 ≤ (Instr.process 3 0 []).handle.toNat ∧ (Instr.process 3 0 []).handle.toNat ≤ (demo 0 []).nctx)) ∧
    (1 ≤ (2 : Handle).toNat ∧ (2 : Handle).toNat ≤ (demo 0 []).nctx) := by decide

/-- OP 0, OP 5 and bit 8 of RSVD. -/
theorem witness_ReservedWordsAreRefused :
    ((demo 0 [.command ⟨0x10, .empty⟩]).port = .command ⟨0x10, .empty⟩ :: [] ∧ (demo 0 [.command ⟨0x10, .empty⟩]).Good ∧
      (0x10 : Word).toNat % 16 = 0) ∧
    ((demo 0 [.command ⟨0x15, .empty⟩]).Good ∧ 5 ≤ (0x15 : Word).toNat % 16) ∧
    ((demo 0 [.command ⟨0x114, .empty⟩]).Good ∧ (0x114 : Word).toNat / 2 ^ 8 ≠ 0) := by decide

/-- A well-formed transaction, a reserved one and a malformed one at the port. -/
theorem witness_ExactlyTheMalformedAreRefused :
    ((demo 0 [.command ⟨0x14, .empty⟩]).port = .command ⟨0x14, .empty⟩ :: [] ∧ (demo 0 [.command ⟨0x14, .empty⟩]).Good ∧
      transactionWellFormed ⟨0x14, .empty⟩ = true) ∧
    refusedOf (step (demo 0 [.command ⟨0x15, .empty⟩])) = some .reservedEncoding ∧
    refusedOf (step (demo 0 [.command ⟨0x12, .ivBlock (List.replicate 11 0) 0⟩])) = some .malformedTransaction ∧
    refusedOf (step (demo 0 [.command ⟨0x11, .keyBlock 32 (key00.take 31)⟩])) = some .malformedTransaction := by
  decide +kernel

theorem witness_StepRunsTheDecodedCommand :
    (demo 0 [.command ⟨0x14, .empty⟩]).port = .command ⟨0x14, .empty⟩ :: [] ∧ (demo 0 [.command ⟨0x14, .empty⟩]).Good ∧
    decode ⟨0x14, .empty⟩ = .ok (.genblock 1) := ⟨rfl, ⟨rfl, rfl⟩, rfl⟩

/-- Each clause: the wrong width, c0 and c3, size 24 on c2, sizes 16 and 32 on c1 and on c2. -/
theorem witness_SetkeyFollowsItsRule : (key00.take 31).length ≠ 32 ∧ key00.length = 32 ∧
    ¬ (1 ≤ (0 : Handle).toNat ∧ (0 : Handle).toNat ≤ (demo 0 []).nctx) ∧
    ¬ (1 ≤ (3 : Handle).toNat ∧ (3 : Handle).toNat ≤ (demo 0 []).nctx) ∧
    (1 ≤ (2 : Handle).toNat ∧ (2 : Handle).toNat ≤ (demo 0 []).nctx) ∧ ((24 : Word) ≠ 16 ∧ (24 : Word) ≠ 32) ∧
    slotAt (demo 0 []) 1 = some (zSlot 0) ∧ slotAt (demo 0 []) 2 = some Slot.reset ∧
    ((16 : Word) = 16 ∨ (16 : Word) = 32) ∧ ((32 : Word) = 16 ∨ (32 : Word) = 32) := by decide

theorem witness_IgnoredKeyBytesDoNotMatter : key00.length = 32 ∧ key16.length = 32 ∧ key00 ≠ key16 ∧
    key00.take 16 = key16.take 16 ∧ ((31 : Word) ≠ 16 ∧ (31 : Word) ≠ 32) := by decide

theorem witness_SetivFollowsItsRule : (List.replicate 11 (0 : Byte)).length ≠ 12 ∧
    (List.replicate 12 (0 : Byte)).length = 12 ∧
    ¬ (1 ≤ (15 : Handle).toNat ∧ (15 : Handle).toNat ≤ (demo 0 []).nctx) ∧
    slotAt (demo 0 []) 2 = some Slot.reset := by decide

theorem witness_SetkeyAndSetivCommute : key00.length = 32 ∧ (List.replicate 12 (0 : Byte)).length = 12 ∧
    ((16 : Word) = 16 ∨ (16 : Word) = 32) ∧ (1 ≤ (2 : Handle).toNat ∧ (2 : Handle).toNat ≤ (demo 0 []).nctx) := by decide

theorem witness_SetivRestartsTheKeystream : (List.replicate 12 (0 : Byte)).length = 12 ∧
    (1 ≤ (1 : Handle).toNat ∧ (1 : Handle).toNat ≤ (demo 0 []).nctx) ∧
    (∀ i ∈ [Instr.genblock 1, .process 1 1 [7]], isKeystreamCommand 1 i = true) ∧
    ∃ t, runCommands [.genblock 1, .process 1 1 [7]] (demo 0 []) = .next t :=
  ⟨rfl, by decide, by decide, _, rfl⟩

theorem witness_QuarterRoundFollowsItsLines : (0 : Fin 16) ≠ 5 ∧ (0 : Fin 16) ≠ 10 ∧ (0 : Fin 16) ≠ 15 ∧
    (5 : Fin 16) ≠ 10 ∧ (5 : Fin 16) ≠ 15 ∧ (10 : Fin 16) ≠ 15 ∧
    (3, 4, 9, 14) ∈ columnGroups ++ diagonalGroups := by decide

theorem witness_QuarterRoundsOfAPassCommute : columnGroups.reverse.Perm columnGroups ∧
    diagonalGroups.reverse.Perm diagonalGroups ∧ columnGroups.reverse ≠ columnGroups := by decide

/-- The last byte of a block, and the bytes of the all-zero input. -/
theorem witness_BlockTransformSerialisesTheFeedForward : (15 < 16 ∧ 3 < 4) ∧ 4 * 15 + 3 < 64 := by decide

/-- Each clause: an operand block, c0, a slot with no flag, one with a key only, and a ready one. -/
theorem witness_GenblockFollowsItsRule :
    (OperandBlock.dataBlock 0 [] ≠ .empty ∧
      (demo 0 [.command ⟨(encode (.genblock 1)).cw, .dataBlock 0 []⟩]).Good) ∧
    ¬ (1 ≤ (0 : Handle).toNat ∧ (0 : Handle).toNat ≤ (demo 0 []).nctx) ∧
    (slotAt (demo 0 []) 2 = some Slot.reset ∧ (Slot.reset.keyValid = false ∨ Slot.reset.ivValid = false)) ∧
    (keyedSlot.keyValid = true ∧ keyedSlot.ivValid = false) ∧
    (slotAt (demo 0xFFFFFFFF []) 1 = some (zSlot 0xFFFFFFFF) ∧ (zSlot 0xFFFFFFFF).keyValid = true ∧
      (zSlot 0xFFFFFFFF).ivValid = true) := by decide

theorem witness_KeystreamRunsFollowTheCounter : slotAt (demo 0 []) 1 = some (zSlot 0) ∧ (zSlot 0).keyValid = true ∧
    (zSlot 0).ivValid = true ∧
    (∀ i ∈ [Instr.process 1 1 [7], .genblock 1, .process 1 0 []], isKeystreamCommand 1 i = true) := by decide

/-- The last clauses' premises: block 0 comes again as block 2^32 of 2^32 + 1, and 2^32 is a multiple of the period. -/
theorem witness_KeystreamRepeatsAfterItsPeriod : slotAt (demo 0 []) 1 = some (zSlot 0) ∧ (zSlot 0).keyValid = true ∧
    (zSlot 0).ivValid = true ∧ 0 + 2 ^ 32 < 2 ^ 32 + 1 ∧ 2 ^ 32 % 2 ^ 32 = 0 ∧ 1 % 2 ^ 32 ≠ 0 := by decide

/-- Each clause: 4 bytes for LEN 5, c3 with LEN 0 and LEN 1, an unready slot with LEN 1. -/
theorem witness_ProcessChecksBeforeItsLoop : [0, 0, 0, (0 : Byte)].length ≠ (5 : Word).toNat ∧
    (([] : List Byte).length = (0 : Word).toNat ∧
      ¬ (1 ≤ (3 : Handle).toNat ∧ (3 : Handle).toNat ≤ (demo 0 []).nctx)) ∧
    ([(7 : Byte)].length = (1 : Word).toNat ∧ slotAt (demo 0 []) 2 = some Slot.reset ∧ (1 : Word) ≠ 0 ∧
      (Slot.reset.keyValid = false ∨ Slot.reset.ivValid = false)) := by decide

theorem witness_ProcessOfNoBytesIsANoOp : (1 ≤ (2 : Handle).toNat ∧ (2 : Handle).toNat ≤ (demo 0 []).nctx) := by decide

/-- LEN 0, 64 and 65, and their last bytes. -/
theorem witness_ProcessFollowsTheClosedForm : slotAt (demo 0 []) 1 = some (zSlot 0) ∧ (zSlot 0).keyValid = true ∧
    (zSlot 0).ivValid = true ∧ ([] : List Byte).length = (0 : Word).toNat ∧
    ((List.replicate 64 (1 : Byte)).length = (64 : Word).toNat ∧ 63 < (64 : Word).toNat) ∧
    ((List.replicate 65 (1 : Byte)).length = (65 : Word).toNat ∧ 64 < (65 : Word).toNat) := by decide

theorem witness_ProcessEmitsLenBytesAndCountsBlocks :
    ∃ t, exec (.process 1 65 (List.replicate 65 0)) (demo 0 []) = .next t ∧ t.status = 0 ∧ (65 : Word) ≠ 0 :=
  ⟨_, rfl, rfl, by decide⟩

theorem witness_OutputByteDependsOnItsInputByte : [1, 2, (3 : Byte)].length = (3 : Word).toNat ∧
    [9, 2, (8 : Byte)].length = (3 : Word).toNat ∧ 1 < (3 : Word).toNat ∧
    [1, 2, (3 : Byte)].getD 1 0 = [9, 2, (8 : Byte)].getD 1 0 ∧ slotAt (demo 0 []) 1 = some (zSlot 0) ∧
    (zSlot 0).keyValid = true ∧ (zSlot 0).ivValid = true := by decide

theorem witness_ProcessTwiceReturnsTheInput : key00.length = 32 ∧ (List.replicate 12 (0 : Byte)).length = 12 ∧
    ((32 : Word) = 16 ∨ (32 : Word) = 32) ∧ [1, 2, (3 : Byte)].length = (3 : Word).toNat ∧
    (demo 0 []).constants = State.reset.constants ∧ (1 ≤ (1 : Handle).toNat ∧ (1 : Handle).toNat ≤ (demo 0 []).nctx) ∧
    (1 ≤ (2 : Handle).toNat ∧ (2 : Handle).toNat ≤ State.reset.nctx) := by decide

/-- The three codes: OK, NULL_CONTEXT and INVALID_KEY_SIZE. -/
theorem witness_StatusCodesHaveTheirCauses : (∃ t, exec (.genblock 1) (demo 0 []) = .next t ∧ t.status = 0) ∧
    (∃ t, exec (.setkey 0 24 key00) (demo 0 []) = .next t ∧ t.status = 1) ∧
    (∃ t, exec (.setkey 1 24 key00) (demo 0 []) = .next t ∧ t.status = 2) :=
  ⟨⟨_, rfl, rfl⟩, ⟨_, rfl, rfl⟩, ⟨_, rfl, rfl⟩⟩

theorem witness_ErrorsChangeOnlyStatus :
    (∃ t, exec (.setiv 3 (List.replicate 12 0) 0) (demo 0 []) = .next t ∧ (t.status = 1 ∨ t.status = 2)) ∧
    (∃ t, exec (.setkey 2 33 key00) (demo 0 []) = .next t ∧ (t.status = 1 ∨ t.status = 2)) :=
  ⟨⟨_, rfl, .inl rfl⟩, ⟨_, rfl, .inr rfl⟩⟩

/-- A completion, and a step with no next state. -/
theorem witness_EveryCompletionDeliversOneResponse :
    (∃ t, exec (.process 1 2 [1, 2]) (demo 0 []) = .next t ∧ t.status = 0) ∧
    (∀ t, step (demo 0 [.command ⟨0x24, .empty⟩]) ≠ .next t) := by
  refine ⟨⟨_, rfl, rfl⟩, fun t ht => ?_⟩
  have hf : step (demo 0 [.command ⟨0x24, .empty⟩]) = .fault .uninitializedState := rfl
  rw [hf] at ht
  exact absurd ht (by simp)

theorem witness_MisuseIsNotAnError : slotAt (demo 0xFFFFFFFF []) 1 = some (zSlot 0xFFFFFFFF) ∧
    (List.replicate 12 (0 : Byte)).length = 12 ∧ (zSlot 0xFFFFFFFF).keyValid = true ∧
    (zSlot 0xFFFFFFFF).ivValid = true ∧ [(7 : Byte)].length = (1 : Word).toNat := by decide

/-- A command that failed, and after it one that completes, one that faults and one that is refused. -/
theorem witness_ErrorsAreNotSticky : (∃ s', exec (.genblock 0) (demo 0 []) = .next s' ∧ s'.status ≠ 0) ∧
    (∃ t, exec (.genblock 1) (demo 0 []) = .next t) ∧
    exec (.genblock 2) (demo 0 []) = .fault .uninitializedState ∧
    exec (.setkey 1 32 []) (demo 0 []) = .refused .malformedTransaction :=
  ⟨⟨_, rfl, by decide⟩, ⟨_, rfl⟩, rfl, rfl⟩

/-- Both sides of the equivalence, for both commands. -/
theorem witness_OnlyUninitializedSlotsFault : (Instr.genblock 2).wellFormed = true ∧
    (Instr.process 2 1 [7]).wellFormed = true ∧ (Instr.process 2 0 []).wellFormed = true ∧
    slotAt (demo 0 []) (Instr.genblock 2).handle = some Slot.reset ∧
    faultOf (exec (.process 2 1 [7]) (demo 0 [])) = some .uninitializedState ∧
    faultOf (exec (.process 2 0 []) (demo 0 [])) = none := by decide

theorem witness_StopsOnlySetTheirMark :
    step (demo 0 [.command ⟨0x24, .empty⟩]) = .fault .uninitializedState ∧
    step (demo 0 [.command ⟨0x15, .empty⟩]) = .refused .reservedEncoding := ⟨rfl, rfl⟩

/-- Either mark set, and a well-formed transaction at the port. -/
theorem witness_MarksAreSticky :
    (demo 0 [.command ⟨0x14, .empty⟩]).port = .command ⟨0x14, .empty⟩ :: [] ∧
    ¬ { demo 0 [.command ⟨0x14, .empty⟩] with faulted := some .uninitializedState }.Good ∧
    ¬ { demo 0 [.command ⟨0x14, .empty⟩] with refused := some .reservedEncoding }.Good := by decide

/-- A transaction for each of the outcomes R103 lists, in its order. -/
theorem witness_ChecksRunInTheirOrder :
    refusedOf (step (demo 0 [.command ⟨0x101, .keyBlock 32 key00⟩])) = some .reservedEncoding ∧
    refusedOf (step (demo 0 [.command ⟨0x01, .keyBlock 7 []⟩])) = some .malformedTransaction ∧
    statusOf (step (demo 0 [.command ⟨0x01, .keyBlock 7 key00⟩])) = some 1 ∧
    statusOf (step (demo 0 [.command ⟨0x11, .keyBlock 7 key00⟩])) = some 2 ∧
    statusOf (step (demo 0 [.command ⟨0x23, .dataBlock 0 []⟩])) = some 0 ∧
    faultOf (step (demo 0 [.command ⟨0x23, .dataBlock 1 [7]⟩])) = some .uninitializedState ∧
    statusOf (step (demo 0 [.command ⟨0x14, .empty⟩])) = some 0 := by decide +kernel

/-- One command of each kind completes on a present slot, with and without an error. -/
theorem witness_OnlyTheListedWordsAreWritten :
    (∃ t, exec (.setkey 1 16 key00) (demo 0 []) = .next t ∧ t.status = 0) ∧
    (∃ t, exec (.setkey 1 17 key00) (demo 0 []) = .next t ∧ t.status = 2) ∧
    (∃ t, exec (.setiv 1 (List.replicate 12 0) 3) (demo 0 []) = .next t ∧ t.status = 0) ∧
    (∃ t, exec (.genblock 1) (demo 0 []) = .next t ∧ t.status = 0) ∧
    (∃ t, exec (.process 1 1 [7]) (demo 0 []) = .next t ∧ t.status = 0) ∧ slotAt (demo 0 []) 1 = some (zSlot 0) :=
  ⟨⟨_, rfl, rfl⟩, ⟨_, rfl, rfl⟩, ⟨_, rfl, rfl⟩, ⟨_, rfl, rfl⟩, ⟨_, rfl, rfl⟩, rfl⟩

/-- Two states that differ in the other slot, and the three outcomes. -/
theorem witness_CommandsTouchOnlyTheirSlot :
    (∃ t, exec (.genblock 1) (demo 0 []) = .next t ∧ (2 : Handle) ≠ (Instr.genblock 1).handle) ∧
    (demo 0 []).constants = { demo 0 [] with slots := [zSlot 0, keyedSlot] }.constants ∧
    slotAt (demo 0 []) 1 = slotAt { demo 0 [] with slots := [zSlot 0, keyedSlot] } 1 ∧
    demo 0 [] ≠ { demo 0 [] with slots := [zSlot 0, keyedSlot] } ∧
    exec (.genblock 2) (demo 0 []) = .fault .uninitializedState ∧
    exec (.setiv 1 [] 0) (demo 0 []) = .refused .malformedTransaction :=
  ⟨⟨_, rfl, by decide⟩, rfl, by decide, by decide, rfl, rfl⟩

theorem witness_CommandsLeaveTheRestAlone : ∃ t, exec (.process 1 1 [7]) (demo 0 []) = .next t := ⟨_, rfl⟩

/-- A flag set by the command, and flags it leaves as they were. -/
theorem witness_FlagsRecordOkSetups :
    (∃ t, exec (.setkey 2 32 key00) (demo 0 []) = .next t ∧ t.status = 0) ∧
    (∃ t, exec (.setkey 2 31 key00) (demo 0 []) = .next t ∧ t.status = 2) ∧
    slotAt (demo 0 []) 2 = some Slot.reset ∧ slotAt (demo 0 []) 1 = some (zSlot 0) :=
  ⟨⟨_, rfl, rfl⟩, ⟨_, rfl, rfl⟩, rfl, rfl⟩

theorem witness_SetupMakesASlotReady : key00.length = 32 ∧ (List.replicate 12 (0 : Byte)).length = 12 ∧
    ((16 : Word) = 16 ∨ (16 : Word) = 32) ∧ (1 ≤ (2 : Handle).toNat ∧ (2 : Handle).toNat ≤ State.reset.nctx) ∧
    isKeystreamCommand 2 (.genblock 2) = true ∧ isKeystreamCommand 2 (.process 2 1 [7]) = true := by decide

theorem witness_AlignedPiecesContinueTheKeystream : slotAt (demo 0 []) 1 = some (zSlot 0) ∧
    (zSlot 0).keyValid = true ∧ (zSlot 0).ivValid = true ∧
    (∀ p ∈ [List.replicate 64 (1 : Byte), [], List.replicate 128 2], p.length % 64 = 0) ∧
    ([List.replicate 64 (1 : Byte), [], List.replicate 128 2].flatten ++ [7]).length < 2 ^ 32 := by decide +kernel

theorem witness_MidBlockEndSkipsToTheNextBlock : slotAt (demo 0 []) 1 = some (zSlot 0) ∧ (zSlot 0).keyValid = true ∧
    (zSlot 0).ivValid = true ∧ [(7 : Byte)].length < 2 ^ 32 ∧ (List.replicate 63 (0 : Byte)).length < 2 ^ 32 := by decide

/-- The invariant holds of reset and of the small state, and a step leads from it by each outcome. -/
theorem witness_StepKeepsTheInvariant : StateInv State.reset ∧ StateInv (demo 0 [.command ⟨0x14, .empty⟩]) ∧
    (∃ t, step (demo 0 [.command ⟨0x14, .empty⟩]) = .next t) ∧
    step (demo 0 [.command ⟨0x24, .empty⟩]) = .fault .uninitializedState ∧
    step (demo 0 [.command ⟨0x15, .empty⟩]) = .refused .reservedEncoding :=
  ⟨by decide, by decide, ⟨_, rfl⟩, rfl, rfl⟩

theorem witness_ResetMeetsTheInvariant : Config.standard.Legal ∧ (⟨1, Constants.standard⟩ : Config).Legal ∧
    (⟨15, Constants.standard⟩ : Config).Legal ∧ ¬ (⟨16, Constants.standard⟩ : Config).Legal := by decide

/-- Lines of R65's forms that the first clause speaks of, written out by hand: a short key, both bases, `zeros`, two quotes
and `ascii`; and lines that assemble, for the second. -/
theorem witness_AssembledLinesAreWellFormed :
    (Instr.setkey 1 16 key16).wellFormed = true ∧
    "setkey c1, 16, 000102030405060708090a0b0c0d0e0f".toList ∈ linesOf (.setkey 1 16 key16) ∧
    "setkey c1, 0x10, 000102030405060708090a0b0c0d0e0f".toList ∈ linesOf (.setkey 1 16 key16) ∧
    "setkey c15, 32, zeros(32)".toList ∈ linesOf (.setkey 15 32 (List.replicate 32 0)) ∧
    "setiv c2, 00000000000000000000004a, 0xfffffffe".toList ∈
      linesOf (.setiv 2 (List.replicate 11 0 ++ [0x4a]) 0xFFFFFFFE) ∧
    "process c1, \"\"".toList ∈ linesOf (.process 1 0 []) ∧
    "process c1, ascii(\"Hi, A\")".toList ∈ linesOf (.process 1 5 [0x48, 0x69, 0x2c, 0x20, 0x41]) ∧
    linesOf (.genblock 10) = ["genblock c10".toList] ∧
    assembleChars "genblock c1".toList = some (.genblock 1) ∧
    (assembleChars "setkey c1, 24, ff".toList).isSome = true ∧
    (assembleChars "setiv c0, zeros(12), 7".toList).isSome = true ∧
    (assembleChars "process c2, 0a".toList).isSome = true := by decide +kernel

end Sys2Proof.Tests
end

-- Proofs: the little-endian conversions (R16, R41)
section
/-! PROOFS. The conversions of R16, each by its own equation, and the round trips between words and bytes. -/

namespace Sys2Proof.Machine

/-- The sum of R16 does not wrap: four bytes are at most `2^32 - 1`. -/
theorem le32_toNat (b : List Byte) (i : Nat) :
    (le32 b i).toNat = (byteAt b i).toNat + 2 ^ 8 * (byteAt b (i + 1)).toNat + 2 ^ 16 * (byteAt b (i + 2)).toNat
      + 2 ^ 24 * (byteAt b (i + 3)).toNat := by
  have h0 := (byteAt b i).isLt
  have h1 := (byteAt b (i + 1)).isLt
  have h2 := (byteAt b (i + 2)).isLt
  have h3 := (byteAt b (i + 3)).isLt
  simp only [le32, BitVec.toNat_add, BitVec.toNat_shiftLeft, BitVec.toNat_setWidth, Nat.shiftLeft_eq]
  omega

theorem bytes32_map_toNat (w : Word) : (bytes32 w).map BitVec.toNat =
    [w.toNat % 2 ^ 8, w.toNat / 2 ^ 8 % 2 ^ 8, w.toNat / 2 ^ 16 % 2 ^ 8, w.toNat / 2 ^ 24] := by
  have htop : w.toNat / 2 ^ 24 % 2 ^ 8 = w.toNat / 2 ^ 24 := Nat.mod_eq_of_lt (by omega)
  simp only [bytes32, List.map_cons, List.map_nil, BitVec.extractLsb'_toNat, Nat.shiftRight_eq_div_pow, htop,
    Nat.pow_zero, Nat.div_one]

theorem le32_bytes32 (w : Word) : le32 (bytes32 w) 0 = w := by
  have hb := bytes32_map_toNat w
  simp only [bytes32, List.map_cons, List.map_nil, List.cons.injEq, and_true] at hb
  obtain ⟨h0, h1, h2, h3⟩ := hb
  apply BitVec.eq_of_toNat_eq
  simp only [le32_toNat, bytes32, byteAt, List.getD_cons_zero, List.getD_cons_succ, h0, h1, h2, h3]
  omega

theorem bytes32_le32 (b0 b1 b2 b3 : Byte) : bytes32 (le32 [b0, b1, b2, b3] 0) = [b0, b1, b2, b3] := by
  apply List.map_injective_iff.2 BitVec.toNat_injective
  have hw : (le32 [b0, b1, b2, b3] 0).toNat =
      b0.toNat + 2 ^ 8 * b1.toNat + 2 ^ 16 * b2.toNat + 2 ^ 24 * b3.toNat := le32_toNat _ 0
  rw [bytes32_map_toNat, hw]
  simp only [List.map_cons, List.map_nil, List.cons.injEq, and_true]
  omega

theorem wordsLe_cons (b0 b1 b2 b3 : Byte) (rest : List Byte) :
    wordsLe (b0 :: b1 :: b2 :: b3 :: rest) = le32 [b0, b1, b2, b3] 0 :: wordsLe rest := rfl

theorem wordsLe_bytes32_append (w : Word) (rest : List Byte) : wordsLe (bytes32 w ++ rest) = w :: wordsLe rest :=
  congrArg (· :: wordsLe rest) (le32_bytes32 w)

/-- A byte string of `4 * (n + 1)` bytes is four bytes and a string of `4 * n`. -/
theorem exists_four_bytes {b : List Byte} {n : Nat} (hb : b.length = 4 * (n + 1)) :
    ∃ b0 b1 b2 b3 rest, b = b0 :: b1 :: b2 :: b3 :: rest ∧ rest.length = 4 * n := by
  match b, hb with
  | b0 :: b1 :: b2 :: b3 :: rest, hb =>
    refine ⟨b0, b1, b2, b3, rest, rfl, ?_⟩
    simp only [List.length_cons] at hb
    omega

/-- `le32` four bytes further on reads the string behind the first four. -/
theorem le32_cons_four (b0 b1 b2 b3 : Byte) (rest : List Byte) (i : Nat) :
    le32 (b0 :: b1 :: b2 :: b3 :: rest) (i + 4) = le32 rest i := rfl

theorem wordsLe_eq_map_le32 (n : Nat) {b : List Byte} (hb : b.length = 4 * n) :
    wordsLe b = (List.range n).map fun j => le32 b (4 * j) := by
  induction n generalizing b with
  | zero => simp [List.eq_nil_of_length_eq_zero hb, wordsLe]
  | succ n ih =>
    obtain ⟨b0, b1, b2, b3, rest, rfl, hrest⟩ := exists_four_bytes hb
    have htail : ∀ j, le32 (b0 :: b1 :: b2 :: b3 :: rest) (4 * (j + 1)) = le32 rest (4 * j) :=
      fun j => le32_cons_four b0 b1 b2 b3 rest (4 * j)
    rw [wordsLe_cons, ih hrest, List.range_succ_eq_map, List.map_cons, List.map_map]
    simp only [Function.comp_def, Nat.succ_eq_add_one, htail]
    rfl

theorem serialize_append (ws vs : List Word) : serialize (ws ++ vs) = serialize ws ++ serialize vs :=
  List.flatMap_append

theorem wordsLe_serialize (ws : List Word) : wordsLe (serialize ws) = ws := by
  induction ws with
  | nil => rfl
  | cons w ws ih => rw [serialize_cons, wordsLe_bytes32_append, ih]

theorem serialize_wordsLe (n : Nat) {b : List Byte} (hb : b.length = 4 * n) : serialize (wordsLe b) = b := by
  induction n generalizing b with
  | zero => simp [List.eq_nil_of_length_eq_zero hb, wordsLe]
  | succ n ih =>
    obtain ⟨b0, b1, b2, b3, rest, rfl, hrest⟩ := exists_four_bytes hb
    rw [wordsLe_cons, serialize_cons, bytes32_le32, ih hrest]
    rfl

/-- Settles O1: each conversion by its own equation. -/
theorem conversionsAreLittleEndian : Obligations.ConversionsAreLittleEndian := by
  unfold Obligations.ConversionsAreLittleEndian
  exact ⟨fun b i _ => le32_toNat b i, bytes32_map_toNat, fun b n hb => wordsLe_eq_map_le32 n hb,
    fun ws vs => ⟨serialize_nil, serialize_append ws vs, fun w => by simp⟩⟩

/-- Settles O2, by induction on the list of words and on the number of words in the byte string. -/
theorem serializeAndWordsLeAreInverse : Obligations.SerializeAndWordsLeAreInverse := by
  unfold Obligations.SerializeAndWordsLeAreInverse
  exact ⟨wordsLe_serialize, fun b n hb => serialize_wordsLe n hb⟩

end Sys2Proof.Machine
end

-- Proofs: the rounds are a permutation (R1, R74, R78)
section
/-! PROOFS. Every line of the quarter round replaces one word by an injective function of it that is fixed by another,
unchanged word; so the quarter rounds, the passes and the double rounds are injective. -/

namespace Sys2Proof.Machine

open Function (Injective)

theorem rotl32_eq_rotateLeft (v : Word) {n : Nat} (hn : n < 32) : rotl32 v n = v.rotateLeft n := by
  rw [BitVec.rotateLeft_def, Nat.mod_eq_of_lt hn]
  rfl

theorem rotateRight_rotateLeft (v : Word) (n : Nat) : (v.rotateLeft n).rotateRight n = v := by
  ext i hi
  rw [BitVec.getElem_rotateRight]
  split
  · rw [BitVec.getElem_rotateLeft, dif_neg (by omega)]
    congr 1
    omega
  · rw [BitVec.getElem_rotateLeft, dif_pos (by omega)]
    congr 1
    omega

theorem rotl32_injective {n : Nat} (hn : n < 32) : Injective (rotl32 · n) := by
  have hleft : Function.LeftInverse (fun v : Word => v.rotateRight n) (rotl32 · n) := fun v => by
    simp only [rotl32_eq_rotateLeft v hn, rotateRight_rotateLeft]
  exact hleft.injective

/-- Replacing word `p` by `f` of itself and of another word `q` loses nothing, when `f` is injective in the first. -/
theorem setWord_injective {p q : Fin 16} (hpq : p ≠ q) {f : Word → Word → Word} (hf : ∀ v, Injective (f · v)) :
    Injective fun x : Vector Word 16 => x.set p (f x[p] x[q]) := by
  intro x y hxy
  have hword (j : Nat) (hj : j < 16) : (x.set p (f x[p] x[q]))[j] = (y.set p (f y[p] y[q]))[j] :=
    congrArg (fun z : Vector Word 16 => z[j]) hxy
  have hother (j : Nat) (hj : j < 16) (hpj : p.val ≠ j) : x[j] = y[j] := by
    have := hword j hj
    rwa [Vector.getElem_set_ne _ _ hpj, Vector.getElem_set_ne _ _ hpj] at this
  have hq : x[q] = y[q] := hother q q.isLt (Fin.val_ne_of_ne hpq)
  have hp : x[p] = y[p] := by
    have := hword p p.isLt
    rw [Vector.getElem_set_self, Vector.getElem_set_self, hq] at this
    exact hf _ this
  apply Vector.ext
  intro j hj
  by_cases hpj : p.val = j
  · subst hpj
    exact hp
  · exact hother j hj hpj

theorem quarterLine_injective {p q r : Fin 16} (hpq : p ≠ q) (hpr : p ≠ r) {n : Nat} (hn : n < 32) :
    Injective fun x => quarterLine x p q r n := by
  have hadd : Injective fun x : Vector Word 16 => x.set p (x[p] + x[q]) :=
    setWord_injective hpq fun v => add_left_injective v
  have hrot : Injective fun x : Vector Word 16 => x.set r (rotl32 (x[r] ^^^ x[p]) n) :=
    setWord_injective (f := fun u v => rotl32 (u ^^^ v) n) hpr.symm fun v u u' huu' =>
      (BitVec.xor_left_inj v).1 (rotl32_injective hn huu')
  exact hrot.comp hadd

/-- The lines of the quarter round add word b to a and d to c, and rotate d and b (R74). -/
theorem quarterRound_injective {a b c d : Fin 16} (hab : a ≠ b) (had : a ≠ d) (hcd : c ≠ d) (hcb : c ≠ b) :
    Injective fun x => quarterRound x a b c d := by
  have h1 : Injective fun x => quarterLine x a b d 16 := quarterLine_injective hab had (by decide)
  have h2 : Injective fun x => quarterLine x c d b 12 := quarterLine_injective hcd hcb (by decide)
  have h3 : Injective fun x => quarterLine x a b d 8 := quarterLine_injective hab had (by decide)
  have h4 : Injective fun x => quarterLine x c d b 7 := quarterLine_injective hcd hcb (by decide)
  exact h4.comp (h3.comp (h2.comp h1))

theorem quarterPass_injective {gs : List (Fin 16 × Fin 16 × Fin 16 × Fin 16)}
    (hgs : ∀ g ∈ gs, [g.1, g.2.1, g.2.2.1, g.2.2.2].Nodup) : Injective fun x => quarterPass x gs := by
  induction gs with
  | nil => exact fun _ _ h => h
  | cons g gs ih =>
    obtain ⟨a, b, c, d⟩ := g
    obtain ⟨hg, hrest⟩ := List.forall_mem_cons.1 hgs
    obtain ⟨⟨hab, -, had⟩, ⟨hbc, -⟩, hcd⟩ : (a ≠ b ∧ a ≠ c ∧ a ≠ d) ∧ (b ≠ c ∧ b ≠ d) ∧ c ≠ d := by
      simpa using hg
    exact (ih hrest).comp (quarterRound_injective hab had hcd hbc.symm)

theorem passGroups_nodup : ∀ g ∈ columnGroups ++ diagonalGroups, [g.1, g.2.1, g.2.2.1, g.2.2.2].Nodup := by
  simp [columnGroups, diagonalGroups]

theorem doubleRound_injective : Injective doubleRound := by
  have hcol : Injective fun x => quarterPass x columnGroups :=
    quarterPass_injective fun g hg => passGroups_nodup g (List.mem_append_left _ hg)
  have hdiag : Injective fun x => quarterPass x diagonalGroups :=
    quarterPass_injective fun g hg => passGroups_nodup g (List.mem_append_right _ hg)
  exact hdiag.comp hcol

/-- Settles O24, by induction on the number of double rounds. -/
theorem doubleRoundsAreInjective : Obligations.DoubleRoundsAreInjective := by
  unfold Obligations.DoubleRoundsAreInjective
  intro n
  induction n with
  | zero => exact fun _ _ h => h
  | succ n ih => exact ih.comp doubleRound_injective

end Sys2Proof.Machine
end

-- Proofs: the machine's invariant (R13, R24, R25, R30, R97)
section
/-! PROOFS. Every operation on a slot and on the state keeps `KeySound` and `StateInv`; so does every step. -/

namespace Sys2Proof.Machine

/-- `KeySound` reads KEY_VALID and words 0 to 11, and nothing else of a slot (R24, R25). -/
theorem keySound_iff_take (consts : Constants) (c : Slot) :
    KeySound consts c ↔ (c.keyValid = true →
      (c.words.toList.take 12).take 4 = consts.sigma.toList ∨
      ((c.words.toList.take 12).take 4 = consts.tau.toList ∧
        (c.words.toList.take 12).drop 8 = ((c.words.toList.take 12).drop 4).take 4)) := by
  simp [KeySound, List.take_take, List.drop_take]

theorem keySound_congr {consts : Constants} {c c' : Slot} (hkey : c'.keyValid = c.keyValid)
    (hwords : ∀ j (hj : j < 12), c'.words[j] = c.words[j]) (hc : KeySound consts c) : KeySound consts c' := by
  have htake : c'.words.toList.take 12 = c.words.toList.take 12 := by
    apply List.ext_getElem (by simp)
    intro j hj _
    have hj12 : j < 12 := by simpa using hj
    simpa using hwords j hj12
  rw [keySound_iff_take, hkey, htake, ← keySound_iff_take]
  exact hc

theorem keySound_reset (consts : Constants) : KeySound consts Slot.reset := fun hk => absurd hk (by decide)

theorem keySound_advanceCounter {consts : Constants} {c : Slot} (hc : KeySound consts c) :
    KeySound consts (advanceCounter c) :=
  keySound_congr (c := c) rfl (fun j hj => Vector.getElem_set_ne (by omega) _ (by omega)) hc

theorem keySound_loadIv {consts : Constants} {c : Slot} (n : List Byte) (ctr : Word) (hc : KeySound consts c) :
    KeySound consts (loadIv n ctr c) :=
  keySound_congr (c := c) rfl (fun j hj => by rw [loadIv_get n ctr c j (by omega), if_pos hj]) hc

theorem keySound_combineBlocks {consts : Constants} (n : Nat) (din : List Byte) {c : Slot} (hc : KeySound consts c) :
    KeySound consts (combineBlocks n din c).2 := by
  induction n generalizing din c with
  | zero => exact hc
  | succ n ih =>
    rw [combineBlocks_succ]
    exact ih (din.drop 64) (keySound_advanceCounter hc)

theorem keyWords_length (consts : Constants) (ksz : Word) (k : List Byte) : (keyWords consts ksz k).length = 12 := by
  unfold keyWords
  split <;> simp [keyHalf]

theorem loadKey_take (consts : Constants) (ksz : Word) (k : List Byte) (c : Slot) :
    (loadKey consts ksz k c).words.toList.take 12 = keyWords consts ksz k := by
  apply List.ext_getElem (by simp [keyWords_length])
  intro j hj hj'
  have hj12 : j < 12 := by simpa using hj
  have hget := loadKey_get consts ksz k c j (by omega)
  rw [List.getElem?_eq_getElem hj', Option.getD_some] at hget
  simpa using hget

theorem keySound_loadKey (consts : Constants) (ksz : Word) (k : List Byte) (c : Slot) :
    KeySound consts (loadKey consts ksz k c) := by
  rw [keySound_iff_take, loadKey_take]
  intro _
  unfold keyWords
  split
  · exact .inl (by simp)
  · exact .inr ⟨by simp, by simp [keyHalf, List.drop_append]⟩

/-! ### The operations on the state -/

/-- The three values of STATUS (R30, R96). -/
theorem statusByte_range (code : StatusCode) : statusByte code = 0 ∨ statusByte code = 1 ∨ statusByte code = 2 := by
  cases code <;> decide

/-- A result other than OK has no data (R97). -/
theorem responseSound_of_code {code : StatusCode} {dout : List Byte} (hd : code = .ok ∨ dout = []) :
    ResponseSound ⟨statusByte code, dout⟩ := by
  cases code with
  | ok => exact .inl rfl
  | nullContext => exact .inr ⟨.inl rfl, hd.resolve_left (by decide)⟩
  | invalidKeySize => exact .inr ⟨.inr rfl, hd.resolve_left (by decide)⟩

theorem stateInv_complete {s : State} {code : StatusCode} {dout : List Byte} (hs : StateInv s)
    (hd : code = .ok ∨ dout = []) : StateInv (complete code dout s) := by
  obtain ⟨hnctx, -, hslots, hresps⟩ := hs
  refine ⟨hnctx, statusByte_range code, hslots, ?_⟩
  intro r hr
  rcases List.mem_append.1 hr with hold | hnew
  · exact hresps r hold
  · obtain rfl := List.mem_singleton.1 hnew
    exact responseSound_of_code hd

theorem stateInv_setSlot {s : State} {c : Slot} (h : Handle) (hs : StateInv s) (hc : KeySound s.constants c) :
    StateInv (setSlot h c s) := by
  obtain ⟨hnctx, hstatus, hslots, hresps⟩ := hs
  refine ⟨by simpa using hnctx, hstatus, ?_, hresps⟩
  intro c' hc'
  rcases List.mem_or_eq_of_mem_set hc' with hold | rfl
  · exact hslots c' hold
  · exact hc

theorem stateInv_applyReset {s : State} (hs : StateInv s) : StateInv (applyReset s) := by
  obtain ⟨hnctx, -, -, hresps⟩ := hs
  refine ⟨by simpa [State.nctx] using hnctx, .inl rfl, ?_, hresps⟩
  intro c hc
  obtain rfl := List.eq_of_mem_replicate hc
  exact keySound_reset _

/-- The marks and the port are no part of the invariant. -/
theorem stateInv_congr {s t : State} (hconsts : t.constants = s.constants) (hslots : t.slots = s.slots)
    (hstatus : t.status = s.status) (hresps : t.responses = s.responses) (hs : StateInv s) : StateInv t := by
  unfold StateInv
  rw [hconsts, hslots, hstatus, hresps]
  exact hs

theorem keySound_of_slotAt {s : State} {h : Handle} {c : Slot} (hs : StateInv s) (hc : slotAt s h = some c) :
    KeySound s.constants c := by
  obtain ⟨-, -, hslots, -⟩ := hs
  exact hslots c (slotAt_mem hc)

/-! ### The commands and the step

In each command's case split the branches that refuse or fault give no next state, and what is left are its completions. -/

theorem stateInv_execSetkey {h : Handle} {ksz : Word} {k : List Byte} {s t : State} (hs : StateInv s)
    (ht : execSetkey h ksz k s = .next t) : StateInv t := by
  rcases execSetkey_cases h ksz k s with ⟨_, he⟩ | ⟨_, _, he⟩ | ⟨c, _, _, _, he⟩ | ⟨c, _, _, _, he⟩ <;>
    rw [he] at ht <;> cases ht
  · exact stateInv_complete hs (.inr rfl)
  · exact stateInv_complete hs (.inr rfl)
  · exact stateInv_complete (stateInv_setSlot h hs (keySound_loadKey _ ksz k c)) (.inl rfl)

theorem stateInv_execSetiv {h : Handle} {n : List Byte} {ctr : Word} {s t : State} (hs : StateInv s)
    (ht : execSetiv h n ctr s = .next t) : StateInv t := by
  rcases execSetiv_cases h n ctr s with ⟨_, he⟩ | ⟨_, _, he⟩ | ⟨c, _, hc, he⟩ <;> rw [he] at ht <;> cases ht
  · exact stateInv_complete hs (.inr rfl)
  · exact stateInv_complete (stateInv_setSlot h hs (keySound_loadIv n ctr (keySound_of_slotAt hs hc))) (.inl rfl)

theorem stateInv_execProcess {h : Handle} {len : Word} {din : List Byte} {s t : State} (hs : StateInv s)
    (ht : execProcess h len din s = .next t) : StateInv t := by
  rcases execProcess_cases h len din s with ⟨_, he⟩ | ⟨_, _, he⟩ | ⟨c, _, _, _, he⟩ | ⟨c, _, _, _, _, he⟩ |
    ⟨c, _, hc, _, _, he⟩ <;> rw [he] at ht <;> cases ht
  · exact stateInv_complete hs (.inr rfl)
  · exact stateInv_complete hs (.inl rfl)
  · have hkey := keySound_combineBlocks (blockCount len) din (keySound_of_slotAt hs hc)
    exact stateInv_complete (stateInv_setSlot h hs hkey) (.inl rfl)

theorem stateInv_execGenblock {h : Handle} {s t : State} (hs : StateInv s) (ht : execGenblock h s = .next t) :
    StateInv t := by
  rcases execGenblock_cases h s with ⟨_, he⟩ | ⟨c, _, _, he⟩ | ⟨c, hc, _, he⟩ <;> rw [he] at ht <;> cases ht
  · exact stateInv_complete hs (.inr rfl)
  · exact stateInv_complete (stateInv_setSlot h hs (keySound_advanceCounter (keySound_of_slotAt hs hc))) (.inl rfl)

theorem stateInv_exec {i : Instr} {s t : State} (hs : StateInv s) (ht : exec i s = .next t) : StateInv t := by
  cases i with
  | setkey h ksz k => exact stateInv_execSetkey hs ht
  | setiv h n ctr => exact stateInv_execSetiv hs ht
  | process h len din => exact stateInv_execProcess hs ht
  | genblock h => exact stateInv_execGenblock hs ht

/-- R64: a transaction that decodes is executed, when no mark is set. -/
theorem step_decoded {s : State} {t : Transaction} {rest : List PortEvent} {i : Instr}
    (hp : s.port = .command t :: rest) (hf : s.faulted = none) (hr : s.refused = none) (hd : decode t = .ok i) :
    step s = exec i { s with port := rest } := by
  simp [step, takeEvent, hp, hf, hr, hd]

/-- The three ways a step completes: nothing is presented, the reset input, or a command that completes. -/
theorem step_next_cases {s t : State} (ht : step s = .next t) :
    t = s ∨ (∃ rest, t = applyReset { s with port := rest }) ∨
      ∃ i rest, exec i { s with port := rest } = .next t := by
  cases hp : s.port with
  | nil =>
    rw [step_idle hp] at ht
    cases ht
    exact .inl rfl
  | cons e rest =>
    cases e with
    | reset =>
      rw [step_reset hp] at ht
      cases ht
      exact .inr (.inl ⟨rest, rfl⟩)
    | command tr =>
      cases hf : s.faulted with
      | some r => simp [step_faulted hp hf] at ht
      | none =>
        cases hr : s.refused with
        | some r => simp [step_refused hp hf hr] at ht
        | none =>
          cases hd : decode tr with
          | error e => simp [step_undecoded hp hf hr hd] at ht
          | ok i =>
            rw [step_decoded hp hf hr hd, hf, hr] at ht
            exact .inr (.inr ⟨i, rest, ht⟩)

theorem stateInv_step {s t : State} (hs : StateInv s) (ht : step s = .next t) : StateInv t := by
  have htaken (rest : List PortEvent) : StateInv { s with port := rest } := stateInv_congr rfl rfl rfl rfl hs
  rcases step_next_cases ht with rfl | ⟨rest, rfl⟩ | ⟨i, rest, he⟩
  · exact hs
  · exact stateInv_applyReset (htaken rest)
  · exact stateInv_exec (htaken rest) he

theorem stateInv_advance {s : State} (hs : StateInv s) : StateInv (advance s) := by
  unfold advance
  cases ho : step s with
  | next t => exact stateInv_step hs ho
  | fault r => exact stateInv_congr rfl rfl rfl rfl hs
  | refused r => exact stateInv_congr rfl rfl rfl rfl hs

/-- Settles O52: a step that completes idles, resets or runs one command, and each keeps the invariant; a step that stops
touches only a mark and the port. -/
theorem stepKeepsTheInvariant : Obligations.StepKeepsTheInvariant := by
  unfold Obligations.StepKeepsTheInvariant
  exact fun s hs => ⟨fun t ht => stateInv_step hs ht, stateInv_advance hs⟩

end Sys2Proof.Machine
end

-- Proofs: what a command does with the slot it names (R22, R67, R70, R84, R88)
section
/-! PROOFS. What a well-formed command does with a present slot is a function of its operands, the constants and that
slot alone; `exec_present` and `exec_next_cases` say so for every command at once. -/

namespace Sys2Proof.Machine

open Host (Outcome)

/-! ### The slot `n` blocks further on (R83, R85) -/

@[simp] theorem slotAfter_keyValid (n : Nat) (c : Slot) : (slotAfter n c).keyValid = c.keyValid := rfl
@[simp] theorem slotAfter_ivValid (n : Nat) (c : Slot) : (slotAfter n c).ivValid = c.ivValid := rfl

@[simp] theorem slotAfter_zero (c : Slot) : slotAfter 0 c = c := by simp [slotAfter]

theorem advanceCounter_eq_slotAfter (c : Slot) : advanceCounter c = slotAfter 1 c := rfl

theorem slotAfter_slotAfter (m n : Nat) (c : Slot) : slotAfter n (slotAfter m c) = slotAfter (m + n) c := by
  simp [slotAfter, BitVec.ofNat_add, BitVec.add_assoc]

theorem combineBlocks_slot (n : Nat) (din : List Byte) (c : Slot) : (combineBlocks n din c).2 = slotAfter n c := by
  induction n generalizing din c with
  | zero => simp
  | succ n ih => rw [combineBlocks_succ, ih, advanceCounter_eq_slotAfter, slotAfter_slotAfter, Nat.add_comm]

@[simp] theorem blockCount_zero : blockCount 0 = 0 := rfl

theorem wordAt_eq_getElem (x : Vector Word 16) {j : Nat} (hj : j < 16) : wordAt x j = x[j] := by
  simp [wordAt, hj]

theorem wordAt_slotAfter_counter (n : Nat) (c : Slot) :
    wordAt (slotAfter n c).words 12 = wordAt c.words 12 + BitVec.ofNat 32 n := by
  simp [wordAt_eq_getElem, slotAfter]

theorem wordAt_slotAfter_other (n : Nat) (c : Slot) {j : Nat} (hj : j < 16) (hne : j ≠ 12) :
    wordAt (slotAfter n c).words j = wordAt c.words j := by
  simp only [wordAt_eq_getElem _ hj, slotAfter]
  exact Vector.getElem_set_ne _ _ hne.symm

/-! ### What a command does with its slot -/

/-- What a command that completes on a present slot answers, and the slot it leaves. -/
structure Effect where
  code : StatusCode
  dout : List Byte
  slot : Slot

/-- The effect of a well-formed command on the slot it names, `none` where it faults (R67, R70, R84, R88).
`exec_present` ties it to `exec`. -/
def effect (consts : Constants) (c : Slot) : Instr → Option Effect
  | .setkey _ ksz k => some (if ksz = 16 ∨ ksz = 32 then ⟨.ok, [], loadKey consts ksz k c⟩ else ⟨.invalidKeySize, [], c⟩)
  | .setiv _ n ctr => some ⟨.ok, [], loadIv n ctr c⟩
  | .process _ len din =>
    if len = 0 ∨ ready c = true then
      some ⟨.ok, (combineBlocks (blockCount len) din c).1, slotAfter (blockCount len) c⟩
    else none
  | .genblock _ => if ready c = true then some ⟨.ok, blockTransform c.words, slotAfter 1 c⟩ else none

/-- The state a command leaves that completes on the slot of `h` with the effect `e`. -/
def Effect.state (e : Effect) (h : Handle) (s : State) : State := complete e.code e.dout (setSlot h e.slot s)

/-- What a command on the present slot of `h` answers, given its effect. -/
def Effect.outcome (h : Handle) (s : State) : Option Effect → Outcome State Fault Refusal
  | some e => .next (e.state h s)
  | none => .fault .uninitializedState

theorem setSlot_self {s : State} {h : Handle} {c : Slot} (hc : slotAt s h = some c) : setSlot h c s = s := by
  obtain ⟨hlt, hs⟩ := slotAt_of_present (present_of_slotAt hc)
  obtain rfl : c = s.slots[h.toNat - 1] := Option.some.inj (hc.symm.trans hs)
  simp [setSlot]

theorem exec_malformed {i : Instr} {s : State} (hw : i.wellFormed = false) :
    exec i s = .refused .malformedTransaction := by
  cases i with
  | setkey h ksz k => exact if_pos (by simpa [Instr.wellFormed] using hw)
  | setiv h n ctr => exact if_pos (by simpa [Instr.wellFormed] using hw)
  | process h len din => exact if_pos (by simpa [Instr.wellFormed] using hw)
  | genblock h => cases hw

theorem exec_absent {i : Instr} {s : State} (hw : i.wellFormed = true) (hc : slotAt s i.handle = none) :
    exec i s = .next (complete .nullContext [] s) := by
  cases i with
  | setkey h ksz k => exact (if_neg (by simpa [Instr.wellFormed] using hw)).trans (onSlot_absent hc)
  | setiv h n ctr => exact (if_neg (by simpa [Instr.wellFormed] using hw)).trans (onSlot_absent hc)
  | process h len din => exact (if_neg (by simpa [Instr.wellFormed] using hw)).trans (onSlot_absent hc)
  | genblock h => exact onSlot_absent hc

theorem execSetkey_present {h : Handle} {ksz : Word} {k : List Byte} {s : State} {c : Slot} (hk : k.length = 32)
    (hc : slotAt s h = some c) :
    execSetkey h ksz k s = Effect.outcome h s (effect s.constants c (.setkey h ksz k)) := by
  rcases execSetkey_cases h ksz k s with ⟨hk', _⟩ | ⟨_, hc', _⟩ | ⟨c', _, hc', hz, he⟩ | ⟨c', _, hc', hz, he⟩
  · exact absurd hk hk'
  · simp [hc] at hc'
  · rw [he, effect, if_neg (not_or.2 hz), Effect.outcome, Effect.state, setSlot_self hc]
  · obtain rfl : c = c' := Option.some.inj (hc.symm.trans hc')
    rw [he, effect, if_pos hz, Effect.outcome, Effect.state]

theorem execSetiv_present {h : Handle} {n : List Byte} {ctr : Word} {s : State} {c : Slot} (hn : n.length = 12)
    (hc : slotAt s h = some c) :
    execSetiv h n ctr s = Effect.outcome h s (effect s.constants c (.setiv h n ctr)) := by
  rcases execSetiv_cases h n ctr s with ⟨hn', _⟩ | ⟨_, hc', _⟩ | ⟨c', _, hc', he⟩
  · exact absurd hn hn'
  · simp [hc] at hc'
  · obtain rfl : c = c' := Option.some.inj (hc.symm.trans hc')
    exact he

theorem execProcess_present {h : Handle} {len : Word} {din : List Byte} {s : State} {c : Slot}
    (hd : din.length = len.toNat) (hc : slotAt s h = some c) :
    execProcess h len din s = Effect.outcome h s (effect s.constants c (.process h len din)) := by
  rcases execProcess_cases h len din s with ⟨hd', _⟩ | ⟨_, hc', _⟩ | ⟨c', _, hc', hz, he⟩ |
    ⟨c', _, hc', hz, hr, he⟩ | ⟨c', _, hc', hz, hr, he⟩
  · exact absurd hd hd'
  · simp [hc] at hc'
  · subst hz
    rw [he, effect, if_pos (.inl rfl), Effect.outcome, Effect.state, blockCount_zero, slotAfter_zero, setSlot_self hc,
      combineBlocks_zero]
  · obtain rfl : c = c' := Option.some.inj (hc.symm.trans hc')
    rw [he, effect, if_neg (not_or.2 ⟨hz, by simp [hr]⟩), Effect.outcome]
  · obtain rfl : c = c' := Option.some.inj (hc.symm.trans hc')
    rw [he, effect, if_pos (.inr hr), Effect.outcome, Effect.state, combineBlocks_slot]

theorem execGenblock_present {h : Handle} {s : State} {c : Slot} (hc : slotAt s h = some c) :
    execGenblock h s = Effect.outcome h s (effect s.constants c (.genblock h)) := by
  rcases execGenblock_cases h s with ⟨hc', _⟩ | ⟨c', hc', hr, he⟩ | ⟨c', hc', hr, he⟩
  · simp [hc] at hc'
  · obtain rfl : c = c' := Option.some.inj (hc.symm.trans hc')
    simp [he, effect, hr, Effect.outcome]
  · obtain rfl : c = c' := Option.some.inj (hc.symm.trans hc')
    simp [he, effect, hr, Effect.outcome, Effect.state, advanceCounter_eq_slotAfter]

/-- R22: on a present slot the outcome is made of the effect on that slot, which sees no other. -/
theorem exec_present {i : Instr} {s : State} {c : Slot} (hw : i.wellFormed = true) (hc : slotAt s i.handle = some c) :
    exec i s = Effect.outcome i.handle s (effect s.constants c i) := by
  cases i with
  | setkey h ksz k => exact execSetkey_present (by simpa [Instr.wellFormed] using hw) hc
  | setiv h n ctr => exact execSetiv_present (by simpa [Instr.wellFormed] using hw) hc
  | process h len din => exact execProcess_present (by simpa [Instr.wellFormed] using hw) hc
  | genblock h => exact execGenblock_present hc

/-- The two ways a command completes: on an absent handle with NULL_CONTEXT, on a present one with its effect. -/
theorem exec_next_cases {i : Instr} {s t : State} (ht : exec i s = .next t) :
    (slotAt s i.handle = none ∧ t = complete .nullContext [] s) ∨
    ∃ c e, slotAt s i.handle = some c ∧ effect s.constants c i = some e ∧ t = e.state i.handle s := by
  cases hw : i.wellFormed with
  | false => simp [exec_malformed hw] at ht
  | true =>
    cases hc : slotAt s i.handle with
    | none =>
      rw [exec_absent hw hc] at ht
      exact .inl ⟨rfl, (Outcome.next.inj ht).symm⟩
    | some c =>
      rw [exec_present hw hc] at ht
      cases he : effect s.constants c i with
      | none => simp [he, Effect.outcome] at ht
      | some e =>
        rw [he] at ht
        exact .inr ⟨c, e, rfl, he, (Outcome.next.inj ht).symm⟩

/-- The completion of a command on a slot known to be present. -/
theorem exec_next_of_slotAt {i : Instr} {s t : State} {c : Slot} (ht : exec i s = .next t)
    (hc : slotAt s i.handle = some c) : ∃ e, effect s.constants c i = some e ∧ t = e.state i.handle s := by
  rcases exec_next_cases ht with ⟨hn, _⟩ | ⟨c', e, hc', he, hte⟩
  · simp [hc] at hn
  · obtain rfl : c = c' := Option.some.inj (hc.symm.trans hc')
    exact ⟨e, he, hte⟩

theorem statusByte_eq_zero_iff (code : StatusCode) : statusByte code = 0 ↔ code = .ok := by
  cases code <;> decide

end Sys2Proof.Machine
end

-- Proofs: frames, isolation and flags (R22, R28, R29, R31, R38)
section
/-! PROOFS. The frame, the isolation and the flags of every command, from the one description of its effect. -/

namespace Sys2Proof.Machine

/-! ### What a completion leaves alone (R22, R31, R38, R63) -/

@[simp] theorem Effect.state_status (e : Effect) (h : Handle) (s : State) :
    (e.state h s).status = statusByte e.code := rfl

@[simp] theorem Effect.state_responses (e : Effect) (h : Handle) (s : State) :
    (e.state h s).responses = s.responses ++ [⟨statusByte e.code, e.dout⟩] := rfl

theorem Effect.slotAt_state_same (e : Effect) {h : Handle} {s : State} {c : Slot} (hc : slotAt s h = some c) :
    slotAt (e.state h s) h = some e.slot := by
  rw [Effect.state, slotAt_complete, slotAt_setSlot_same hc]

theorem Effect.completedWith_state (e : Effect) {h : Handle} {s : State} {c : Slot} (hc : slotAt s h = some c) :
    CompletedWith s (e.state h s) h (statusByte e.code) e.dout := by
  refine ⟨rfl, rfl, rfl, setSlot_nctx h e.slot s, rfl, rfl, rfl, fun h' hne => ?_⟩
  rw [Effect.state, slotAt_complete, slotAt_setSlot_other hc e.slot hne]

theorem exec_completedWith {i : Instr} {s t : State} (ht : exec i s = .next t) :
    ∃ dout, CompletedWith s t i.handle t.status dout := by
  rcases exec_next_cases ht with ⟨_, rfl⟩ | ⟨c, e, hc, _, rfl⟩
  · exact ⟨[], rfl, rfl, rfl, rfl, rfl, rfl, rfl, fun h' _ => slotAt_complete _ _ s h'⟩
  · exact ⟨e.dout, e.completedWith_state hc⟩

theorem exec_slotAt_other {i : Instr} {s t : State} {h : Handle} (ht : exec i s = .next t) (hne : h ≠ i.handle) :
    slotAt t h = slotAt s h := by
  obtain ⟨_, -, -, -, -, -, -, -, hother⟩ := exec_completedWith ht
  exact hother h hne

theorem exec_configuration {i : Instr} {s t : State} (ht : exec i s = .next t) :
    t.nctx = s.nctx ∧ t.constants = s.constants := by
  obtain ⟨_, -, -, hconsts, hnctx, -⟩ := exec_completedWith ht
  exact ⟨hnctx, hconsts⟩

theorem advance_configuration (s : State) : (advance s).nctx = s.nctx ∧ (advance s).constants = s.constants := by
  unfold advance
  cases ho : step s with
  | next t =>
    rcases step_next_cases ho with rfl | ⟨rest, rfl⟩ | ⟨i, rest, he⟩
    · exact ⟨rfl, rfl⟩
    · exact ⟨applyReset_nctx _, rfl⟩
    · exact exec_configuration (s := { s with port := rest }) he
  | fault r => exact ⟨rfl, rfl⟩
  | refused r => exact ⟨rfl, rfl⟩

/-- Settles O6: a command completes with the configuration kept, and the other steps are the idle one, the reset input
and the stops. -/
theorem configurationNeverChanges : Obligations.ConfigurationNeverChanges := by
  unfold Obligations.ConfigurationNeverChanges
  exact ⟨fun i s t ht => exec_configuration ht, advance_configuration⟩

/-- Settles O46, by the frame of every completion. -/
theorem commandsLeaveTheRestAlone : Obligations.CommandsLeaveTheRestAlone := by
  unfold Obligations.CommandsLeaveTheRestAlone
  intro i s t ht
  obtain ⟨dout, -, hresps, hconsts, hnctx, hfaulted, hrefused, hport, -⟩ := exec_completedWith ht
  exact ⟨hfaulted, hrefused, hport, hconsts, hnctx, _, hresps⟩

/-! ### Isolation (R22) -/

/-- R22: states that agree on the constants and on the named slot cannot be told apart by the command. -/
theorem exec_next_transfer {i : Instr} {s s' t : State} (hconsts : s.constants = s'.constants)
    (hslot : slotAt s i.handle = slotAt s' i.handle) (ht : exec i s = .next t) :
    ∃ t' r, exec i s' = .next t' ∧ t'.status = t.status ∧ slotAt t' i.handle = slotAt t i.handle ∧
      t.responses = s.responses ++ [r] ∧ t'.responses = s'.responses ++ [r] := by
  have hw : i.wellFormed = true := by
    by_contra hw
    simp [exec_malformed (Bool.eq_false_iff.2 hw)] at ht
  rcases exec_next_cases ht with ⟨hc, rfl⟩ | ⟨c, e, hc, he, rfl⟩
  · refine ⟨_, _, exec_absent hw (hslot ▸ hc), rfl, ?_, rfl, rfl⟩
    simp only [slotAt_complete, hslot]
  · have hc' : slotAt s' i.handle = some c := hslot ▸ hc
    refine ⟨e.state i.handle s', _, ?_, rfl, ?_, rfl, rfl⟩
    · rw [exec_present hw hc', ← hconsts, he]
      rfl
    · rw [e.slotAt_state_same hc, e.slotAt_state_same hc']


theorem exec_fault_transfer {i : Instr} {s s' : State} {r : Fault} (hconsts : s.constants = s'.constants)
    (hslot : slotAt s i.handle = slotAt s' i.handle) (hr : exec i s = .fault r) : exec i s' = .fault r := by
  cases hw : i.wellFormed with
  | false => simp [exec_malformed hw] at hr
  | true =>
    cases hc : slotAt s i.handle with
    | none => simp [exec_absent hw hc] at hr
    | some c =>
      rw [exec_present hw hc] at hr
      rw [exec_present hw (hslot ▸ hc), ← hconsts]
      cases he : effect s.constants c i with
      | none => rwa [he] at hr
      | some e => simp [he, Effect.outcome] at hr

/-- Only the operand shapes decide a refusal, and no state (R60). -/
theorem exec_refused_transfer {i : Instr} {s : State} {r : Refusal} (s' : State) (hr : exec i s = .refused r) :
    exec i s' = .refused r := by
  cases hw : i.wellFormed with
  | false => rwa [exec_malformed hw] at hr ⊢
  | true =>
    cases hc : slotAt s i.handle with
    | none => simp [exec_absent hw hc] at hr
    | some c =>
      rw [exec_present hw hc] at hr
      cases he : effect s.constants c i <;> simp [he, Effect.outcome] at hr

/-- Settles O45: the frame of every completion, and the three outcomes carried to a state that agrees on the slot. -/
theorem commandsTouchOnlyTheirSlot : Obligations.CommandsTouchOnlyTheirSlot := by
  unfold Obligations.CommandsTouchOnlyTheirSlot
  exact ⟨fun i s t h ht hne => exec_slotAt_other ht hne, fun i s s' hconsts hslot =>
    ⟨fun t ht => exec_next_transfer hconsts hslot ht, fun r hr => exec_fault_transfer hconsts hslot hr,
      fun r hr => exec_refused_transfer s' hr⟩⟩

/-! ### The words and flags each command writes (R28, R29) -/

theorem effect_setkey_cases {consts : Constants} {c : Slot} {h : Handle} {ksz : Word} {k : List Byte} {e : Effect}
    (he : effect consts c (.setkey h ksz k) = some e) :
    e = ⟨.ok, [], loadKey consts ksz k c⟩ ∨ e = ⟨.invalidKeySize, [], c⟩ := by
  obtain rfl := Option.some.inj he
  split
  · exact .inl rfl
  · exact .inr rfl

theorem eq_of_effect_setiv {consts : Constants} {c : Slot} {h : Handle} {n : List Byte} {ctr : Word} {e : Effect}
    (he : effect consts c (.setiv h n ctr) = some e) : e = ⟨.ok, [], loadIv n ctr c⟩ :=
  (Option.some.inj he).symm

theorem eq_of_effect_process {consts : Constants} {c : Slot} {h : Handle} {len : Word} {din : List Byte} {e : Effect}
    (he : effect consts c (.process h len din) = some e) :
    e = ⟨.ok, (combineBlocks (blockCount len) din c).1, slotAfter (blockCount len) c⟩ :=
  (Option.some.inj (Option.ite_none_right_eq_some.1 he).2).symm

theorem eq_of_effect_genblock {consts : Constants} {c : Slot} {h : Handle} {e : Effect}
    (he : effect consts c (.genblock h) = some e) : e = ⟨.ok, blockTransform c.words, slotAfter 1 c⟩ :=
  (Option.some.inj (Option.ite_none_right_eq_some.1 he).2).symm

/-- R97: a completion whose code is not OK writes no slot. -/
theorem effect_slot_of_code_ne_ok {consts : Constants} {c : Slot} {i : Instr} {e : Effect}
    (he : effect consts c i = some e) (hcode : e.code ≠ .ok) : e.slot = c := by
  cases i with
  | setkey h ksz k =>
    rcases effect_setkey_cases he with rfl | rfl
    · exact absurd rfl hcode
    · rfl
  | setiv h n ctr => exact absurd (congrArg Effect.code (eq_of_effect_setiv he)) hcode
  | process h len din => exact absurd (congrArg Effect.code (eq_of_effect_process he)) hcode
  | genblock h => exact absurd (congrArg Effect.code (eq_of_effect_genblock he)) hcode

/-- R29: KEY_VALID records an OK SETKEY. -/
theorem effect_keyValid_iff {consts : Constants} {c : Slot} {i : Instr} {e : Effect} (he : effect consts c i = some e) :
    e.slot.keyValid = true ↔ c.keyValid = true ∨ (e.code = .ok ∧ ∃ ksz k, i = .setkey i.handle ksz k) := by
  cases i with
  | setkey h ksz k => rcases effect_setkey_cases he with rfl | rfl <;> simp [Instr.handle]
  | setiv h n ctr => simp [eq_of_effect_setiv he]
  | process h len din => simp [eq_of_effect_process he]
  | genblock h => simp [eq_of_effect_genblock he]

/-- R29: IV_VALID records an OK SETIV. -/
theorem effect_ivValid_iff {consts : Constants} {c : Slot} {i : Instr} {e : Effect} (he : effect consts c i = some e) :
    e.slot.ivValid = true ↔ c.ivValid = true ∨ (e.code = .ok ∧ ∃ n ctr, i = .setiv i.handle n ctr) := by
  cases i with
  | setkey h ksz k => rcases effect_setkey_cases he with rfl | rfl <;> simp
  | setiv h n ctr => simp [eq_of_effect_setiv he, Instr.handle]
  | process h len din => simp [eq_of_effect_process he]
  | genblock h => simp [eq_of_effect_genblock he]

/-- Settles O47: on the named slot by the flags of the effect, on another slot by the frame. -/
theorem flagsRecordOkSetups : Obligations.FlagsRecordOkSetups := by
  unfold Obligations.FlagsRecordOkSetups
  intro i s t h c ht hc
  by_cases hh : h = i.handle
  · subst hh
    obtain ⟨e, he, rfl⟩ := exec_next_of_slotAt ht hc
    refine ⟨e.slot, e.slotAt_state_same hc, ?_, ?_⟩
    · rw [Effect.state_status, statusByte_eq_zero_iff]
      exact effect_keyValid_iff he
    · rw [Effect.state_status, statusByte_eq_zero_iff]
      exact effect_ivValid_iff he
  · refine ⟨c, (exec_slotAt_other ht hh).trans hc, ?_, ?_⟩
    · exact (or_iff_left fun ⟨_, _, _, hi⟩ => hh (congrArg Instr.handle hi).symm).symm
    · exact (or_iff_left fun ⟨_, _, _, hi⟩ => hh (congrArg Instr.handle hi).symm).symm

theorem wordAt_loadKey_high (consts : Constants) (ksz : Word) (k : List Byte) (c : Slot) {j : Nat} (h12 : 12 ≤ j)
    (hj : j < 16) : wordAt (loadKey consts ksz k c).words j = wordAt c.words j := by
  have hnone : (keyWords consts ksz k)[j]? = none := List.getElem?_eq_none (by simpa [keyWords_length] using h12)
  rw [wordAt_eq_getElem _ hj, wordAt_eq_getElem _ hj, loadKey_get consts ksz k c j hj, hnone, Option.getD_none]

theorem wordAt_loadIv_low (n : List Byte) (ctr : Word) (c : Slot) {j : Nat} (hj : j < 12) :
    wordAt (loadIv n ctr c).words j = wordAt c.words j := by
  have hj16 : j < 16 := by omega
  rw [wordAt_eq_getElem _ hj16, wordAt_eq_getElem _ hj16, loadIv_get n ctr c j hj16, if_pos hj]

/-- Settles O44: the slot of the effect, command by command. -/
theorem onlyTheListedWordsAreWritten : Obligations.OnlyTheListedWordsAreWritten := by
  unfold Obligations.OnlyTheListedWordsAreWritten
  intro i s t c ht hc
  obtain ⟨e, he, rfl⟩ := exec_next_of_slotAt ht hc
  refine ⟨e.slot, e.slotAt_state_same hc, ?_, ?_⟩
  · intro hstatus
    exact effect_slot_of_code_ne_ok he (mt (statusByte_eq_zero_iff e.code).2 hstatus)
  · intro hstatus
    cases i with
    | setkey h ksz k =>
      rcases effect_setkey_cases he with rfl | rfl
      · exact ⟨rfl, rfl, fun j h12 hj => wordAt_loadKey_high _ ksz k c h12 hj⟩
      · cases hstatus
    | setiv h n ctr =>
      rw [eq_of_effect_setiv he]
      exact ⟨loadIv_ivValid n ctr c, loadIv_keyValid n ctr c, fun j hj => wordAt_loadIv_low n ctr c hj⟩
    | process h len din =>
      rw [eq_of_effect_process he]
      refine ⟨rfl, rfl, wordAt_slotAfter_counter _ c, fun j hj hne => wordAt_slotAfter_other _ c hj hne, ?_⟩
      rintro rfl
      exact slotAfter_zero c
    | genblock h =>
      rw [eq_of_effect_genblock he]
      exact ⟨rfl, rfl, wordAt_slotAfter_counter 1 c, fun j hj hne => wordAt_slotAfter_other 1 c hj hne⟩

end Sys2Proof.Machine
end

-- Proofs: the sticky marks and the state after reset (R31, R39)
section
/-! PROOFS. A step with a mark set repeats the marked stop, and the state after reset meets the invariant. -/

namespace Sys2Proof.Machine

/-- R103 item 1: with a mark set, a transaction ends in the stop the mark holds, and `advance` sets the mark to itself. -/
theorem advance_of_mark {s : State} {t : Transaction} {rest : List PortEvent} (hp : s.port = .command t :: rest)
    (hmark : ¬ s.Good) : (∀ u, step s ≠ .next u) ∧ advance s = { s with port := rest } := by
  cases hf : s.faulted with
  | some r =>
    have hs := step_faulted hp hf
    exact ⟨by simp [hs], by simp [advance, hs, settle, hp, ← hf]⟩
  | none =>
    cases hr : s.refused with
    | some r =>
      have hs := step_refused hp hf hr
      exact ⟨by simp [hs], by simp [advance, hs, settle, hp, hf, ← hr]⟩
    | none => exact absurd ⟨hf, hr⟩ hmark

/-- Settles O42: the step repeats the marked stop, and only the port differs after it. -/
theorem marksAreSticky : Obligations.MarksAreSticky := by
  unfold Obligations.MarksAreSticky
  intro s t rest hp hmark
  obtain ⟨hstep, hadvance⟩ := advance_of_mark hp hmark
  exact ⟨hstep, by rw [hadvance]⟩

theorem observedWord_reset (i : Fin 16) : observedWord Slot.reset i = none := by
  simp [observedWord, Slot.reset]

/-- Settles O4: every slot after reset is the reset slot, whose flags cover no word. -/
theorem resetLeavesNoValueAndClearsFlags : Obligations.ResetLeavesNoValueAndClearsFlags := by
  unfold Obligations.ResetLeavesNoValueAndClearsFlags
  intro cfg
  refine ⟨resetOf_nctx cfg, rfl, ?_, rfl, rfl, rfl⟩
  intro c hc
  obtain rfl := List.eq_of_mem_replicate hc
  exact ⟨rfl, rfl, observedWord_reset⟩

theorem stateInv_resetOf {cfg : Config} (hcfg : cfg.Legal) : StateInv (State.resetOf cfg) := by
  refine ⟨by simpa using hcfg, .inl rfl, ?_, by simp⟩
  intro c hc
  obtain rfl := List.eq_of_mem_replicate hc
  exact keySound_reset _

/-- Settles O53: legality is the invariant's range of NCTX, and the reset slots hold no key. -/
theorem resetMeetsTheInvariant : Obligations.ResetMeetsTheInvariant := by
  unfold Obligations.ResetMeetsTheInvariant
  exact ⟨fun cfg hcfg => stateInv_resetOf hcfg, stateInv_resetOf (by decide)⟩

end Sys2Proof.Machine
end

-- Proofs: the closed form of PROCESS (R46, R92)
section
/-! PROOFS. The loop of PROCESS computes the closed form of R92, byte by byte; that an output byte depends on no other
input byte (R46) is read off it. -/

namespace Sys2Proof.Machine

theorem keystreamXor_eq_mapIdx (c : Slot) (din : List Byte) :
    keystreamXor c din = din.mapIdx fun i b => b ^^^ keystreamByte c i := by
  apply List.ext_getElem
  · simp [keystreamXor]
  · intro i _ hi
    have hdin : i < din.length := by simpa using hi
    simp [keystreamXor, byteAt, hdin]

@[simp] theorem keystreamXor_length (c : Slot) (din : List Byte) : (keystreamXor c din).length = din.length := by
  simp [keystreamXor]

/-- R46: output byte `i` is made of input byte `i` and keystream byte `i`. -/
theorem keystreamXor_getD (c : Slot) {din : List Byte} {i : Nat} (hi : i < din.length) :
    (keystreamXor c din).getD i 0 = din.getD i 0 ^^^ keystreamByte c i := by
  simp [keystreamXor_eq_mapIdx, hi]

/-- R85: the keystream of a slot `n` blocks further on is the slot's own from byte `64 * n` on. -/
theorem keystreamByte_slotAfter (n : Nat) (c : Slot) (i : Nat) :
    keystreamByte (slotAfter n c) i = keystreamByte c (i + 64 * n) := by
  have hdiv : (i + 64 * n) / 64 = n + i / 64 := by omega
  have hmod : (i + 64 * n) % 64 = i % 64 := by omega
  rw [keystreamByte, keystreamByte, slotAfter_slotAfter, hdiv, hmod]

theorem keystreamXor_append (c : Slot) {a : List Byte} {n : Nat} (ha : a.length = 64 * n) (b : List Byte) :
    keystreamXor c (a ++ b) = keystreamXor c a ++ keystreamXor (slotAfter n c) b := by
  simp only [keystreamXor_eq_mapIdx, List.mapIdx_append, keystreamByte_slotAfter, ha]

/-- R90: one block combined with at most 64 bytes. -/
theorem xorBytes_blockTransform (c : Slot) {din : List Byte} (hd : din.length ≤ 64) :
    xorBytes din (blockTransform c.words) = keystreamXor c din := by
  rw [keystreamXor_eq_mapIdx]
  apply List.ext_getElem
  · simpa [xorBytes, blockTransform_length] using hd
  · intro i _ hi
    have hdin : i < din.length := by simpa using hi
    have hi64 : i < 64 := hdin.trans_le hd
    simp [xorBytes, keystreamByte, byteAt, Nat.div_eq_of_lt hi64, Nat.mod_eq_of_lt hi64, blockTransform_length, hi64]

/-- R92: enough blocks for the input combine to the closed form. -/
theorem combineBlocks_dout (n : Nat) {din : List Byte} (c : Slot) (hd : din.length ≤ 64 * n) :
    (combineBlocks n din c).1 = keystreamXor c din := by
  induction n generalizing din c with
  | zero => simp [List.eq_nil_of_length_eq_zero (by omega : din.length = 0), keystreamXor]
  | succ n ih =>
    have hdrop : (din.drop 64).length ≤ 64 * n := by
      rw [List.length_drop]
      omega
    rw [combineBlocks_succ, ih _ hdrop, xorBytes_blockTransform c (List.length_take_le 64 din),
      advanceCounter_eq_slotAfter]
    rcases Nat.lt_or_ge din.length 64 with hshort | hlong
    · simp [List.take_of_length_le hshort.le, List.drop_eq_nil_of_le hshort.le, keystreamXor]
    · rw [← keystreamXor_append c (n := 1) (by simpa using hlong), List.take_append_drop]

theorem length_le_blockCount {len : Word} {din : List Byte} (hd : din.length = len.toNat) :
    din.length ≤ 64 * blockCount len := by
  unfold blockCount
  omega

/-- R92: PROCESS on a ready slot completes with the closed form and leaves the slot `ceil(LEN / 64)` blocks further on. -/
theorem exec_process_ready {h : Handle} {len : Word} {din : List Byte} {s : State} {c : Slot}
    (hd : din.length = len.toNat) (hc : slotAt s h = some c) (hkey : c.keyValid = true) (hiv : c.ivValid = true) :
    exec (.process h len din) s =
      .next (Effect.state ⟨.ok, keystreamXor c din, slotAfter (blockCount len) c⟩ h s) := by
  have hready : ready c = true := by simp [ready, hkey, hiv]
  have hpresent : exec (.process h len din) s = Effect.outcome h s (effect s.constants c (.process h len din)) :=
    execProcess_present hd hc
  rw [hpresent, effect, if_pos (.inr hready), combineBlocks_dout _ c (length_le_blockCount hd), Effect.outcome]

/-- Settles O33: both commands leave the slot that LEN alone decides, and byte `i` of the closed form reads byte `i` of
the input. -/
theorem outputByteDependsOnItsInputByte : Obligations.OutputByteDependsOnItsInputByte := by
  unfold Obligations.OutputByteDependsOnItsInputByte
  intro h len din din' i s c hd hd' hi hbyte hc hkey hiv
  refine ⟨_, _, keystreamXor c din, keystreamXor c din', exec_process_ready hd hc hkey hiv,
    exec_process_ready hd' hc hkey hiv, rfl, rfl, rfl, ?_⟩
  rw [keystreamXor_getD c (hi.trans_eq hd.symm), keystreamXor_getD c (hi.trans_eq hd'.symm), hbyte]

end Sys2Proof.Machine
end

-- Proofs: the port order (R47, R48)
section
/-! PROOFS. What `advance` does with each event that can stand first at the port, and that it takes that event alone. -/

namespace Sys2Proof.Machine

theorem advance_idle {s : State} (hp : s.port = []) : advance s = s := by
  rw [advance, step_idle hp, settle_next]

theorem advance_reset {s : State} {rest : List PortEvent} (hp : s.port = .reset :: rest) :
    advance s = applyReset { s with port := rest } := by
  rw [advance, step_reset hp, settle_next]

theorem advance_undecoded {s : State} {t : Transaction} {rest : List PortEvent} {e : DecodeError}
    (hp : s.port = .command t :: rest) (hgood : s.Good) (hd : decode t = .error e) :
    advance s = settle s (.refused (refusalOf e)) := by
  rw [advance, step_undecoded hp hgood.1 hgood.2 hd]

theorem advance_decoded {s : State} {t : Transaction} {rest : List PortEvent} {i : Instr}
    (hp : s.port = .command t :: rest) (hgood : s.Good) (hd : decode t = .ok i) :
    advance s = settle s (exec i { s with port := rest }) := by
  rw [advance, step_decoded hp hgood.1 hgood.2 hd]

/-- From `s` to `t` the first event of the port order has been taken, and at most one response delivered after all
earlier ones. -/
def TakesFirstEvent (s t : State) : Prop :=
  t.port = s.port.tail ∧ ∃ rs : List Response, t.responses = s.responses ++ rs ∧ rs.length ≤ 1

/-- An event that delivers no response: a stop, the reset input, or none presented. -/
theorem takesFirstEvent_of_silent {s t : State} (hport : t.port = s.port.tail) (hresps : t.responses = s.responses) :
    TakesFirstEvent s t :=
  ⟨hport, [], by simpa using hresps, by simp⟩

/-- A command delivers its one response if it completes and none if it stops. -/
theorem takesFirstEvent_settle_exec {s : State} {e : PortEvent} {rest : List PortEvent} (hp : s.port = e :: rest)
    (i : Instr) : TakesFirstEvent s (settle s (exec i { s with port := rest })) := by
  cases ho : exec i { s with port := rest } with
  | next t =>
    obtain ⟨dout, -, hresps, -, -, -, -, hport, -⟩ := exec_completedWith ho
    exact ⟨by simp [hport, hp], [⟨t.status, dout⟩], hresps, by simp⟩
  | fault r => exact takesFirstEvent_of_silent rfl rfl
  | refused r => exact takesFirstEvent_of_silent rfl rfl

theorem takesFirstEvent_advance (s : State) : TakesFirstEvent s (advance s) := by
  cases hp : s.port with
  | nil =>
    rw [advance_idle hp]
    exact takesFirstEvent_of_silent (by simp [hp]) rfl
  | cons e rest =>
    cases e with
    | reset =>
      rw [advance_reset hp]
      exact takesFirstEvent_of_silent (by simp [hp]) rfl
    | command t =>
      by_cases hgood : s.Good
      · cases hd : decode t with
        | error e =>
          rw [advance_undecoded hp hgood hd]
          exact takesFirstEvent_of_silent rfl rfl
        | ok i =>
          rw [advance_decoded hp hgood hd]
          exact takesFirstEvent_settle_exec hp i
      · rw [(advance_of_mark hp hgood).2]
        exact takesFirstEvent_of_silent (by simp [hp]) rfl

/-- Settles O48, by cases on the event that stands first at the port. -/
theorem stepsTakeThePortInOrder : Obligations.StepsTakeThePortInOrder := by
  unfold Obligations.StepsTakeThePortInOrder
  exact takesFirstEvent_advance

end Sys2Proof.Machine
end

-- Proofs: the fields of a command word (R55, R56)
section
/-! PROOFS. A command word is its three fields side by side, so that encoding, reading the fields and matching a table row
are statements about an appended bit vector. -/

namespace Sys2Proof

/-- Command word format C (R55): RSVD, CTX and OP side by side. -/
def wordOfFields (rsvd : BitVec 24) (h : Handle) (op : BitVec 4) : Word := rsvd ++ (h ++ op)

@[simp] theorem rsvdField_wordOfFields (rsvd : BitVec 24) (h : Handle) (op : BitVec 4) :
    rsvdField (wordOfFields rsvd h op) = rsvd := BitVec.extractLsb'_append_eq_left

@[simp] theorem ctxField_wordOfFields (rsvd : BitVec 24) (h : Handle) (op : BitVec 4) :
    ctxField (wordOfFields rsvd h op) = h :=
  (BitVec.extractLsb'_append_eq_of_add_le (by decide)).trans BitVec.extractLsb'_append_eq_left

@[simp] theorem opField_wordOfFields (rsvd : BitVec 24) (h : Handle) (op : BitVec 4) :
    opField (wordOfFields rsvd h op) = op :=
  (BitVec.extractLsb'_append_eq_of_add_le (by decide)).trans BitVec.extractLsb'_append_eq_right

/-- No bit of a command word lies outside its fields. -/
theorem wordOfFields_fields (cw : Word) : wordOfFields (rsvdField cw) (ctxField cw) (opField cw) = cw := by
  have hlow : ctxField cw ++ opField cw = cw.extractLsb' 0 8 := BitVec.extractLsb'_append_extractLsb'_eq_extractLsb' rfl
  rw [wordOfFields, hlow]
  exact BitVec.extractLsb'_append_extractLsb'

theorem wordOfFields_inj {r r' : BitVec 24} {h h' : Handle} {op op' : BitVec 4} :
    wordOfFields r h op = wordOfFields r' h' op' ↔ r = r' ∧ h = h' ∧ op = op' := by
  constructor
  · intro he
    exact ⟨by simpa using congrArg rsvdField he, by simpa using congrArg ctxField he, by simpa using congrArg opField he⟩
  · rintro ⟨rfl, rfl, rfl⟩
    rfl

theorem opField_toNat (cw : Word) : (opField cw).toNat = cw.toNat % 16 := by
  simp [opField]

theorem ctxField_toNat (cw : Word) : (ctxField cw).toNat = cw.toNat / 16 % 16 := by
  simp [ctxField, Nat.shiftRight_eq_div_pow]

theorem opField_eq_iff (cw : Word) (op : BitVec 4) : opField cw = op ↔ cw.toNat % 16 = op.toNat := by
  rw [← BitVec.toNat_inj, opField_toNat]

theorem rsvdField_eq_zero_iff (cw : Word) : rsvdField cw = 0 ↔ cw.toNat / 2 ^ 8 = 0 := by
  have hlt := cw.isLt
  have hnat : (rsvdField cw).toNat = cw.toNat / 2 ^ 8 := by
    simp only [rsvdField, BitVec.extractLsb'_toNat, Nat.shiftRight_eq_div_pow]
    omega
  rw [← BitVec.toNat_inj, hnat]
  rfl

/-- R65: the encoder writes 0 into RSVD, the handle into CTX and the opcode into OP. -/
theorem commandWord_eq_wordOfFields (op : BitVec 4) (h : Handle) :
    commandWord (op.setWidth 32) h = wordOfFields 0 h op := by
  have happend : (h ++ op).setWidth 32 = commandWord (op.setWidth 32) h :=
    BitVec.setWidth_append_eq_shiftLeft_setWidth_or
  rw [← happend]
  exact BitVec.setWidth_eq_append (show 8 ≤ 32 by decide)

/-- R56: the mask of every table row clears CTX and nothing else. -/
theorem and_rowMask (rsvd : BitVec 24) (h : Handle) (op : BitVec 4) :
    wordOfFields rsvd h op &&& 0xFFFFFF0F = wordOfFields rsvd 0 op := by
  have hmask : (0xFFFFFF0F : Word) = wordOfFields (BitVec.allOnes 24) 0 (BitVec.allOnes 4) := by decide
  rw [hmask, wordOfFields, wordOfFields, BitVec.and_append, BitVec.and_append, BitVec.and_allOnes, BitVec.and_allOnes]
  exact congrArg (fun low => rsvd ++ (low ++ op)) BitVec.and_zero

/-- R56: a word is its handle's command word for an opcode exactly when RSVD is 0 and OP is that opcode. -/
theorem commandWord_ctxField_eq_iff (op : BitVec 4) (cw : Word) :
    commandWord (op.setWidth 32) (ctxField cw) = cw ↔ rsvdField cw = 0 ∧ opField cw = op := by
  conv_lhs => rw [commandWord_eq_wordOfFields, ← wordOfFields_fields cw, wordOfFields_inj]
  simp [eq_comm]

/-- R56: a word matches an opcode's row exactly when RSVD is 0 and OP is that opcode; CTX is free. -/
theorem matches_row_iff (op : BitVec 4) (cw : Word) :
    cw &&& 0xFFFFFF0F = op.setWidth 32 ↔ rsvdField cw = 0 ∧ opField cw = op := by
  have hrow : op.setWidth 32 = wordOfFields 0 0 op := by
    rw [← commandWord_eq_wordOfFields]
    simp [commandWord]
  conv_lhs => rw [← wordOfFields_fields cw, and_rowMask, hrow, wordOfFields_inj]
  simp

end Sys2Proof
end

-- Proofs: the decoder and the encoder are inverse (R56, R58 to R62)
section
/-! PROOFS. `decode_eq_ok_iff` says at once that the transaction of a command decodes to it and that no other does. -/

namespace Sys2Proof

/-- The OP that selects a command (R56). -/
def Instr.opcode : Instr → BitVec 4
  | .setkey _ _ _ => 0x1
  | .setiv _ _ _ => 0x2
  | .process _ _ _ => 0x3
  | .genblock _ => 0x4

theorem encode_cw (i : Instr) : (encode i).cw = wordOfFields 0 i.handle i.opcode := by
  cases i with
  | setkey h ksz k => exact commandWord_eq_wordOfFields 0x1 h
  | setiv h n ctr => exact commandWord_eq_wordOfFields 0x2 h
  | process h len din => exact commandWord_eq_wordOfFields 0x3 h
  | genblock h => exact commandWord_eq_wordOfFields 0x4 h

/-- What a transaction must be to stand for a command (R55, R56, R58). -/
def StandsFor (t : Transaction) (i : Instr) : Prop :=
  rsvdField t.cw = 0 ∧ ctxField t.cw = i.handle ∧ opField t.cw = i.opcode ∧ t.operands = (encode i).operands

theorem encode_eq_iff_standsFor (i : Instr) (t : Transaction) : encode i = t ↔ StandsFor t i := by
  constructor
  · rintro rfl
    simp [StandsFor, encode_cw]
  · rintro ⟨hrsvd, hctx, hop, hoperands⟩
    have hcw : (encode i).cw = t.cw := by
      rw [encode_cw, ← wordOfFields_fields t.cw, hrsvd, hctx, hop]
    rcases t with ⟨cw, operands⟩
    obtain rfl : (encode i).cw = cw := hcw
    obtain rfl : operands = (encode i).operands := hoperands
    rfl

/-- Each row of the decoder answers the command of its opcode with the operands it was given. -/
theorem standsFor_of_decode {t : Transaction} {i : Instr} (hd : decode t = .ok i) : StandsFor t i := by
  unfold decode at hd
  split_ifs at hd with hrsvd hsetkey hsetiv hprocess hgenblock
  · split at hd
    next ksz k hoperands =>
      cases hd
      exact ⟨not_not.1 hrsvd, rfl, hsetkey, hoperands⟩
    next => cases hd
  · split at hd
    next n ctr hoperands =>
      cases hd
      exact ⟨not_not.1 hrsvd, rfl, hsetiv, hoperands⟩
    next => cases hd
  · split at hd
    next len din hoperands =>
      cases hd
      exact ⟨not_not.1 hrsvd, rfl, hprocess, hoperands⟩
    next => cases hd
  · split at hd
    next hoperands =>
      cases hd
      exact ⟨not_not.1 hrsvd, rfl, hgenblock, hoperands⟩
    next => cases hd

/-- Whatever its operands are, the transaction of a command decodes to it. -/
theorem decode_encode (i : Instr) : decode (encode i) = .ok i := by
  obtain ⟨hrsvd, hctx, hop, -⟩ := (encode_eq_iff_standsFor i (encode i)).1 rfl
  unfold decode
  rw [if_neg (not_not.2 hrsvd), hctx, hop]
  cases i with
  | setkey h ksz k => rfl
  | setiv h n ctr => rfl
  | process h len din => rfl
  | genblock h => rfl

theorem decode_eq_ok_iff {t : Transaction} {i : Instr} : decode t = .ok i ↔ encode i = t := by
  constructor
  · exact fun hd => (encode_eq_iff_standsFor i t).2 (standsFor_of_decode hd)
  · rintro rfl
    exact decode_encode i

/-! ### Well-formed transactions (R60) -/

/-- R60: the encoder gives a command the operand block of its opcode, so only the lengths are left to check. -/
theorem transactionWellFormed_encode (i : Instr) : transactionWellFormed (encode i) = i.wellFormed := by
  obtain ⟨hrsvd, -, hop, -⟩ := (encode_eq_iff_standsFor i (encode i)).1 rfl
  unfold transactionWellFormed
  rw [hrsvd, hop]
  cases i with
  | setkey h ksz k => rfl
  | setiv h n ctr => rfl
  | process h len din => rfl
  | genblock h => rfl

/-- R60: a well-formed transaction stands for a command. -/
theorem exists_encode_of_transactionWellFormed {t : Transaction} (hw : transactionWellFormed t = true) :
    ∃ i, encode i = t := by
  rcases t with ⟨cw, operands⟩
  obtain ⟨hzero, hblock⟩ := Bool.and_eq_true_iff.1 hw
  have hrsvd : rsvdField cw = 0 := beq_iff_eq.1 hzero
  have hencode (i : Instr) (hctx : ctxField cw = i.handle) (hop : (opField cw == i.opcode) = true) :
      encode i = ⟨cw, (encode i).operands⟩ := (encode_eq_iff_standsFor _ _).2 ⟨hrsvd, hctx, beq_iff_eq.1 hop, rfl⟩
  cases operands with
  | empty => exact ⟨_, hencode (.genblock _) rfl hblock⟩
  | keyBlock ksz k => exact ⟨_, hencode (.setkey _ ksz k) rfl (Bool.and_eq_true_iff.1 hblock).1⟩
  | ivBlock n ctr => exact ⟨_, hencode (.setiv _ n ctr) rfl (Bool.and_eq_true_iff.1 hblock).1⟩
  | dataBlock len din => exact ⟨_, hencode (.process _ len din) rfl (Bool.and_eq_true_iff.1 hblock).1⟩

/-! ### Table rows and reserved words (R56, R61) -/

/-- R56: with the operand block of its opcode, a word decodes to a command on its own handle exactly when it matches the
command's row. -/
theorem decode_eq_ok_iff_matches_row {cw : Word} {i : Instr} (hctx : i.handle = ctxField cw) :
    decode ⟨cw, (encode i).operands⟩ = .ok i ↔ cw &&& 0xFFFFFF0F = i.opcode.setWidth 32 := by
  rw [decode_eq_ok_iff, encode_eq_iff_standsFor, matches_row_iff]
  simp [StandsFor, hctx]

/-- R61: a word is reserved when RSVD is not 0 or no row has its OP, whatever the operands are. -/
theorem decode_eq_reserved_iff (cw : Word) (operands : OperandBlock) :
    decode ⟨cw, operands⟩ = .error .reservedEncoding ↔
      ¬ (rsvdField cw = 0 ∧ (opField cw = 0x1 ∨ opField cw = 0x2 ∨ opField cw = 0x3 ∨ opField cw = 0x4)) := by
  unfold decode
  split_ifs with hrsvd hsetkey hsetiv hprocess hgenblock
  · exact iff_of_true rfl fun h => hrsvd h.1
  · exact iff_of_false (by cases operands <;> simp) (not_not.2 ⟨not_not.1 hrsvd, .inl hsetkey⟩)
  · exact iff_of_false (by cases operands <;> simp) (not_not.2 ⟨not_not.1 hrsvd, .inr (.inl hsetiv)⟩)
  · exact iff_of_false (by cases operands <;> simp) (not_not.2 ⟨not_not.1 hrsvd, .inr (.inr (.inl hprocess))⟩)
  · exact iff_of_false (by cases operands <;> simp) (not_not.2 ⟨not_not.1 hrsvd, .inr (.inr (.inr hgenblock))⟩)
  · exact iff_of_true rfl fun h => h.2.elim hsetkey fun h => h.elim hsetiv fun h => h.elim hprocess hgenblock

/-- Settles O7: both are facts about every command, well formed or not. -/
theorem decodeOfEncodeIsTheCommand : Obligations.DecodeOfEncodeIsTheCommand := by
  unfold Obligations.DecodeOfEncodeIsTheCommand
  exact fun i hw => ⟨decode_encode i, (transactionWellFormed_encode i).trans hw⟩

/-- Settles O8: a transaction that decodes has the fields and the operands of the command it decodes to. -/
theorem encodeOfDecodeIsTheTransaction : Obligations.EncodeOfDecodeIsTheTransaction := by
  unfold Obligations.EncodeOfDecodeIsTheTransaction
  exact fun t i => decode_eq_ok_iff.1

/-- Settles O9: each row by `decode_eq_ok_iff_matches_row`, and a word that matches none has RSVD not 0 or no row's OP. -/
theorem commandWordsMatchTheirTableRows : Obligations.CommandWordsMatchTheirTableRows := by
  unfold Obligations.CommandWordsMatchTheirTableRows
  intro cw
  refine ⟨fun ksz k => decode_eq_ok_iff_matches_row (i := .setkey _ ksz k) rfl,
    fun n ctr => decode_eq_ok_iff_matches_row (i := .setiv _ n ctr) rfl,
    fun len din => decode_eq_ok_iff_matches_row (i := .process _ len din) rfl,
    decode_eq_ok_iff_matches_row (i := .genblock _) rfl, fun operands => ?_, ctxField_toNat cw⟩
  have hrow (op : BitVec 4) := matches_row_iff op cw
  rw [decode_eq_reserved_iff, ← not_or, ← not_or, ← not_or, and_or_left, and_or_left, and_or_left]
  exact not_congr (or_congr (hrow 1).symm (or_congr (hrow 2).symm (or_congr (hrow 3).symm (hrow 4).symm)))

/-- Settles O10: each word with its operands is the transaction of its command, or has an OP or RSVD that is reserved. -/
theorem publishedWordsDecode : Obligations.PublishedWordsDecode := by
  unfold Obligations.PublishedWordsDecode
  have hreserved (cw : Word) := (decode_eq_reserved_iff cw .empty).2
  exact ⟨decode_encode (.setkey 1 32 _), decode_encode (.setkey 0 32 _), decode_encode (.setiv 2 _ 1),
    decode_encode (.process 1 0 []), decode_encode (.genblock 1), hreserved _ (by decide), hreserved _ (by decide),
    hreserved _ (by decide), hreserved _ (by decide)⟩

end Sys2Proof
end

-- Proofs: refusals, absent handles and responses (R57, R60, R61, R63, R64, R102)
section
/-! PROOFS. When a command is refused, what a refused step leaves, and how many bytes a completion delivers. -/

namespace Sys2Proof.Machine

open Host (Outcome)

/-! ### Refusals (R60, R61, R102) -/

/-- R60, R102: a command is refused for the lengths of its operands, and for nothing else. -/
theorem exec_refused_iff {i : Instr} {s : State} {r : Refusal} :
    exec i s = .refused r ↔ i.wellFormed = false ∧ r = .malformedTransaction := by
  cases hw : i.wellFormed with
  | false => simp [exec_malformed hw, eq_comm]
  | true =>
    cases hc : slotAt s i.handle with
    | none => simp [exec_absent hw hc]
    | some c =>
      rw [exec_present hw hc]
      cases effect s.constants c i <;> simp [Effect.outcome]

/-- R60: with no mark set, the transaction at the port is not refused exactly when it is well formed. -/
theorem step_not_refused_iff {s : State} {t : Transaction} {rest : List PortEvent} (hp : s.port = .command t :: rest)
    (hgood : s.Good) : (∀ r, step s ≠ .refused r) ↔ transactionWellFormed t = true := by
  cases hd : decode t with
  | error e =>
    rw [step_undecoded hp hgood.1 hgood.2 hd]
    refine iff_of_false (fun h => h _ rfl) fun hw => ?_
    obtain ⟨i, rfl⟩ := exists_encode_of_transactionWellFormed hw
    simp [decode_encode] at hd
  | ok i =>
    rw [step_decoded hp hgood.1 hgood.2 hd, ← decode_eq_ok_iff.1 hd, transactionWellFormed_encode]
    simp [exec_refused_iff]

/-- R102: the two reasons a transaction is refused for when no mark is set. -/
theorem refusal_of_step {s : State} {t : Transaction} {rest : List PortEvent} {r : Refusal}
    (hp : s.port = .command t :: rest) (hgood : s.Good) (hr : step s = .refused r) :
    r = .reservedEncoding ∨ r = .malformedTransaction := by
  cases hd : decode t with
  | error e =>
    rw [step_undecoded hp hgood.1 hgood.2 hd] at hr
    obtain rfl := Outcome.refused.inj hr
    cases e with
    | reservedEncoding => exact .inl rfl
    | malformedTransaction => exact .inr rfl
  | ok i =>
    rw [step_decoded hp hgood.1 hgood.2 hd] at hr
    exact .inr (exec_refused_iff.1 hr).2

/-- R102: apart from the port (log 13), a refused step sets its mark and changes nothing else. -/
theorem advance_of_refused {s : State} {r : Refusal} (hr : step s = .refused r) :
    { advance s with port := s.port } = { s with refused := some r } := by
  rw [advance, hr]
  rfl

/-- Settles O12: a word with such an OP or RSVD decodes to a reserved encoding, which the step refuses. -/
theorem reservedWordsAreRefused : Obligations.ReservedWordsAreRefused := by
  unfold Obligations.ReservedWordsAreRefused
  intro s t rest hp hgood hword
  have hd : decode t = .error .reservedEncoding := by
    rw [decode_eq_reserved_iff, rsvdField_eq_zero_iff]
    rintro ⟨hrsvd, hop⟩
    simp only [opField_eq_iff] at hop
    have hrows : t.cw.toNat % 16 = 1 ∨ t.cw.toNat % 16 = 2 ∨ t.cw.toNat % 16 = 3 ∨ t.cw.toNat % 16 = 4 := hop
    omega
  have hr := step_undecoded hp hgood.1 hgood.2 hd
  exact ⟨hr, advance_of_refused hr⟩

/-- Settles O13: the fields of the command word read as numbers, the two directions of `step_not_refused_iff`, and the frame
of a refusal. -/
theorem exactlyTheMalformedAreRefused : Obligations.ExactlyTheMalformedAreRefused := by
  unfold Obligations.ExactlyTheMalformedAreRefused
  intro s t rest hp hgood
  refine ⟨?_, fun r hr => ⟨refusal_of_step hp hgood hr, advance_of_refused hr⟩⟩
  rw [step_not_refused_iff hp hgood, transactionWellFormed, Bool.and_eq_true, beq_iff_eq, rsvdField_eq_zero_iff]
  cases t.operands with
  | empty => simp [opField_eq_iff]
  | keyBlock ksz k => simp [opField_eq_iff]
  | ivBlock n ctr => simp [opField_eq_iff]
  | dataBlock len din => simp [opField_eq_iff]

/-- Settles O14, which is `step_decoded`. -/
theorem stepRunsTheDecodedCommand : Obligations.StepRunsTheDecodedCommand := by
  unfold Obligations.StepRunsTheDecodedCommand
  exact fun s t rest i hp hgood hd => step_decoded hp hgood.1 hgood.2 hd

/-! ### Absent handles (R57) -/

theorem completedWith_complete (code : StatusCode) (dout : List Byte) (s : State) (h : Handle) :
    CompletedWith s (complete code dout s) h (statusByte code) dout :=
  ⟨rfl, rfl, rfl, rfl, rfl, rfl, rfl, fun h' _ => slotAt_complete code dout s h'⟩

/-- Settles O11: `present` and `slotAt` decide by the same range, and outside it every well-formed command completes with
NULL_CONTEXT. -/
theorem absentHandlesReturnNullContext : Obligations.AbsentHandlesReturnNullContext := by
  unfold Obligations.AbsentHandlesReturnNullContext
  refine ⟨fun s h => ⟨present_iff s h, fun hp => ?_, slotAt_eq_none_iff s h⟩, fun i s hw hp => ?_⟩
  · obtain ⟨hlt, hs⟩ := slotAt_of_present hp
    rw [hs, List.getElem?_eq_getElem hlt]
  · exact ⟨_, exec_absent hw ((slotAt_eq_none_iff s i.handle).2 hp), rfl, completedWith_complete .nullContext [] s i.handle⟩

/-! ### Responses (R63) -/

theorem wellFormed_of_exec_next {i : Instr} {s t : State} (ht : exec i s = .next t) : i.wellFormed = true := by
  by_contra hw
  simp [exec_malformed (Bool.eq_false_iff.2 hw)] at ht

/-- How many bytes a command emits when it returns OK (R63). -/
def okLength : Instr → Nat
  | .process _ len _ => len.toNat
  | .genblock _ => 64
  | .setkey _ _ _ => 0
  | .setiv _ _ _ => 0

theorem dout_length_of_effect {consts : Constants} {c : Slot} {i : Instr} {e : Effect} (hw : i.wellFormed = true)
    (he : effect consts c i = some e) : e.dout.length = if e.code = .ok then okLength i else 0 := by
  cases i with
  | setkey h ksz k => rcases effect_setkey_cases he with rfl | rfl <;> rfl
  | setiv h n ctr =>
    obtain rfl := eq_of_effect_setiv he
    rfl
  | process h len din =>
    obtain rfl := eq_of_effect_process he
    have hd : din.length = len.toNat := beq_iff_eq.1 hw
    simp [combineBlocks_dout _ c (length_le_blockCount hd), okLength, hd]
  | genblock h =>
    obtain rfl := eq_of_effect_genblock he
    exact blockTransform_length c.words

/-- R63: the one response of a completion, and its length. -/
theorem exec_response {i : Instr} {s t : State} (ht : exec i s = .next t) :
    ∃ dout, t.responses = s.responses ++ [⟨t.status, dout⟩] ∧
      dout.length = if t.status = 0 then okLength i else 0 := by
  rcases exec_next_cases ht with ⟨-, rfl⟩ | ⟨c, e, -, he, rfl⟩
  · exact ⟨[], rfl, rfl⟩
  · refine ⟨e.dout, rfl, ?_⟩
    rw [dout_length_of_effect (wellFormed_of_exec_next ht) he]
    simp only [Effect.state_status, statusByte_eq_zero_iff]

/-- R100, R102: a step that stops delivers no response and writes no STATUS. -/
theorem advance_of_stop {s : State} (hstop : ∀ t, step s ≠ .next t) :
    (advance s).responses = s.responses ∧ (advance s).status = s.status := by
  unfold advance
  cases ho : step s with
  | next t => exact absurd ho (hstop t)
  | fault r => exact ⟨rfl, rfl⟩
  | refused r => exact ⟨rfl, rfl⟩

/-- Settles O37: a completion by its effect, and a stop by the frame of its mark. -/
theorem everyCompletionDeliversOneResponse : Obligations.EveryCompletionDeliversOneResponse := by
  unfold Obligations.EveryCompletionDeliversOneResponse
  refine ⟨fun i s t ht => ?_, fun s => advance_of_stop⟩
  obtain ⟨dout, hresponses, hlength⟩ := exec_response ht
  refine ⟨dout, hresponses, hlength.trans ?_⟩
  cases i <;> rfl

end Sys2Proof.Machine
end

-- Proofs: the text form (R65, R66)
section
/-! PROOFS. Each assembler reads back the operands of a line of R65's forms, and what it reads at all has the lengths of
R60. -/

namespace Sys2Proof.Machine

/-! ### Lines of R65's forms assemble to their command -/

theorem tight_append {as bs : List Char} (hne : as ≠ []) (hhead : as.head? ≠ some ' ') (hb : Tight bs) :
    Tight (as ++ bs) := by
  obtain ⟨hbne, -, hlast⟩ := hb
  refine ⟨by simp [hne], ?_, ?_⟩
  · rwa [List.head?_append_of_ne_nil as hne]
  · rwa [List.getLast?_append_of_ne_nil as hbne]

/-- The mnemonic of a line ends at its first blank, and a line that ends in an operand needs no trimming. -/
theorem splitAtChar_line {mnemonic front last : List Char} (hne : mnemonic ≠ []) (hm : ' ' ∉ mnemonic)
    (hlast : Tight last) :
    splitAtChar ' ' (trimBlanks (mnemonic ++ ' ' :: (front ++ last))) = some (mnemonic, front ++ last) := by
  have hhead : (mnemonic ++ ' ' :: front).head? ≠ some ' ' := by
    rw [List.head?_append_of_ne_nil mnemonic hne]
    exact (tight_of_not_mem hne hm).2.1
  rw [← List.cons_append, ← List.append_assoc, trimBlanks_tight (tight_append (by simp) hhead hlast), List.append_assoc,
    List.cons_append, splitAtChar_append _ hm]

/-- The assembler that a mnemonic selects (R65). -/
def assembleOperands (mnemonic operands : List Char) : Option Instr :=
  if mnemonic = ['s', 'e', 't', 'k', 'e', 'y'] then assembleSetkey operands
  else if mnemonic = ['s', 'e', 't', 'i', 'v'] then assembleSetiv operands
  else if mnemonic = ['p', 'r', 'o', 'c', 'e', 's', 's'] then assembleProcess operands
  else if mnemonic = ['g', 'e', 'n', 'b', 'l', 'o', 'c', 'k'] then assembleGenblock operands
  else none

theorem assembleChars_line {mnemonic front last : List Char} (hne : mnemonic ≠ []) (hm : ' ' ∉ mnemonic)
    (hlast : Tight last) :
    assembleChars (mnemonic ++ ' ' :: (front ++ last)) = assembleOperands mnemonic (front ++ last) := by
  rw [assembleChars, splitAtChar_line hne hm hlast]
  rfl

/-- An operand after a comma and one blank, up to the next comma. -/
theorem splitAtChar_operand {operand : List Char} (rest : List Char) (hc : ',' ∉ operand) :
    splitAtChar ',' (' ' :: (operand ++ ',' :: rest)) = some (' ' :: operand, rest) :=
  splitAtChar_append (as := ' ' :: operand) rest (by simp [hc])

theorem assembleSetkey_operands {h : Handle} {ksz : Word} {p : List Byte} {z l : List Char} (hz : z ∈ numberForms ksz)
    (hl : l ∈ bytesForms p) (hp : p.length ≤ 32) :
    assembleSetkey (handleText h ++ [',', ' '] ++ z ++ [',', ' '] ++ l) =
      some (.setkey h ksz (p ++ List.replicate (32 - p.length) 0)) := by
  obtain ⟨hht, hhc⟩ := handleText_clean h
  obtain ⟨hzt, hzc⟩ := numberForms_clean hz
  simp [assembleSetkey, splitAtChar_append _ hhc, splitAtChar_operand _ hzc, trimBlanks_tight hht,
    trimBlanks_blank_tight hzt, trimBlanks_blank_tight (bytesForms_clean hl).1, handle?_handleText, number?_numberForms hz,
    hexBytes?_bytesForms hl, hp]

theorem assembleSetiv_operands {h : Handle} {n : List Byte} {ctr : Word} {z l : List Char} (hz : z ∈ numberForms ctr)
    (hl : l ∈ bytesForms n) (hn : n.length = 12) :
    assembleSetiv (handleText h ++ [',', ' '] ++ l ++ [',', ' '] ++ z) = some (.setiv h n ctr) := by
  obtain ⟨hht, hhc⟩ := handleText_clean h
  obtain ⟨hlt, hlc⟩ := bytesForms_clean hl
  simp [assembleSetiv, splitAtChar_append _ hhc, splitAtChar_operand _ hlc, trimBlanks_tight hht,
    trimBlanks_blank_tight hlt, trimBlanks_blank_tight (numberForms_clean hz).1, handle?_handleText, number?_numberForms hz,
    hexBytes?_bytesForms hl, hn]

theorem assembleProcess_operands {h : Handle} {len : Word} {din : List Byte} {d : List Char} (hd : d ∈ dataForms din)
    (hlen : din.length = len.toNat) :
    assembleProcess (handleText h ++ [',', ' '] ++ d) = some (.process h len din) := by
  obtain ⟨hht, hhc⟩ := handleText_clean h
  simp [assembleProcess, splitAtChar_append _ hhc, trimBlanks_tight hht, trimBlanks_blank_tight (dataForms_tight hd),
    handle?_handleText, data?_dataForms hd, hlen, len.isLt]

theorem assembleGenblock_operands (h : Handle) : assembleGenblock (handleText h) = some (.genblock h) := by
  simp [assembleGenblock, trimBlanks_tight (handleText_clean h).1, handle?_handleText]

/-- R65: the bytes a line may write for a key port, filled up with zeros, are that key port. -/
theorem keyPrefixes_spec {k p : List Byte} (hk : k.length = 32) (hp : p ∈ keyPrefixes k) :
    p.length ≤ 32 ∧ p ++ List.replicate (32 - p.length) 0 = k := by
  simp only [keyPrefixes, List.mem_filterMap, List.mem_range, Option.ite_none_right_eq_some, Option.some.injEq] at hp
  obtain ⟨n, hn, hfill, rfl⟩ := hp
  have hlength : (k.take n).length = n := List.length_take_of_le (by omega)
  rw [hlength]
  exact ⟨by omega, hfill.symm⟩

/-- R65: a line is its mnemonic, a blank and its operands, the last of which ends the line. -/
theorem assembleChars_of_mem_linesOf {i : Instr} {l : List Char} (hw : i.wellFormed = true) (hl : l ∈ linesOf i) :
    assembleChars l = some i := by
  cases i with
  | setkey h ksz k =>
    simp only [linesOf, List.mem_flatMap, List.mem_map] at hl
    obtain ⟨z, hz, p, hp, b, hb, rfl⟩ := hl
    obtain ⟨hlength, hfill⟩ := keyPrefixes_spec (beq_iff_eq.1 hw) hp
    have hread := assembleSetkey_operands (h := h) hz hb hlength
    rw [hfill] at hread
    exact (assembleChars_line (mnemonic := ['s', 'e', 't', 'k', 'e', 'y']) (by simp) (by decide)
      (bytesForms_clean hb).1).trans hread
  | setiv h n ctr =>
    simp only [linesOf, List.mem_flatMap, List.mem_map] at hl
    obtain ⟨z, hz, b, hb, rfl⟩ := hl
    exact (assembleChars_line (mnemonic := ['s', 'e', 't', 'i', 'v']) (by simp) (by decide)
      (numberForms_clean hz).1).trans (assembleSetiv_operands hz hb (beq_iff_eq.1 hw))
  | process h len din =>
    simp only [linesOf, List.mem_map] at hl
    obtain ⟨d, hd, rfl⟩ := hl
    exact (assembleChars_line (mnemonic := ['p', 'r', 'o', 'c', 'e', 's', 's']) (by simp) (by decide)
      (dataForms_tight hd)).trans (assembleProcess_operands hd (beq_iff_eq.1 hw))
  | genblock h =>
    obtain rfl := List.mem_singleton.1 hl
    exact (assembleChars_line (mnemonic := ['g', 'e', 'n', 'b', 'l', 'o', 'c', 'k']) (front := []) (by simp) (by decide)
      (handleText_clean h).1).trans (assembleGenblock_operands h)

/-! ### Every well-formed command has a line -/

theorem bytesForms_ne_nil (b : List Byte) : bytesForms b ≠ [] := by
  cases b <;> simp [bytesForms]

/-- A line may write the whole key port. -/
theorem self_mem_keyPrefixes {k : List Byte} (hk : k.length = 32) : k ∈ keyPrefixes k := by
  refine List.mem_filterMap.2 ⟨32, by simp, ?_⟩
  simp [List.take_of_length_le hk.le]

theorem linesOf_ne_nil {i : Instr} (hw : i.wellFormed = true) : linesOf i ≠ [] := by
  cases i with
  | setkey h ksz k =>
    have hline : ∃ p ∈ keyPrefixes k, ¬ bytesForms p = [] :=
      ⟨k, self_mem_keyPrefixes (beq_iff_eq.1 hw), bytesForms_ne_nil k⟩
    simpa [linesOf, numberForms] using hline
  | setiv h n ctr => simp [linesOf, numberForms, bytesForms_ne_nil]
  | process h len din => simp [linesOf, dataForms, bytesForms_ne_nil]
  | genblock h => simp [linesOf]

/-! ### What assembles is well formed -/

theorem wellFormed_of_assembleSetkey {cs : List Char} {i : Instr} (ha : assembleSetkey cs = some i) :
    i.wellFormed = true := by
  simp only [assembleSetkey, Option.bind_eq_bind, Option.bind_eq_some_iff, Option.ite_none_right_eq_some,
    Option.some.injEq] at ha
  obtain ⟨_, -, _, -, _, -, _, -, k, -, hk, rfl⟩ := ha
  simp [Instr.wellFormed, hk]

theorem wellFormed_of_assembleSetiv {cs : List Char} {i : Instr} (ha : assembleSetiv cs = some i) :
    i.wellFormed = true := by
  simp only [assembleSetiv, Option.bind_eq_bind, Option.bind_eq_some_iff, Option.ite_none_right_eq_some,
    Option.some.injEq] at ha
  obtain ⟨_, -, _, -, _, -, _, -, _, -, hn, rfl⟩ := ha
  simp [Instr.wellFormed, hn]

theorem wellFormed_of_assembleProcess {cs : List Char} {i : Instr} (ha : assembleProcess cs = some i) :
    i.wellFormed = true := by
  simp only [assembleProcess, Option.bind_eq_bind, Option.bind_eq_some_iff, Option.ite_none_right_eq_some,
    Option.some.injEq] at ha
  obtain ⟨_, -, _, -, din, -, hd, rfl⟩ := ha
  exact beq_iff_eq.2 (Nat.mod_eq_of_lt hd).symm

theorem wellFormed_of_assembleGenblock {cs : List Char} {i : Instr} (ha : assembleGenblock cs = some i) :
    i.wellFormed = true := by
  obtain ⟨h, -, rfl⟩ := Option.map_eq_some_iff.1 ha
  rfl

theorem wellFormed_of_assembleChars {cs : List Char} {i : Instr} (ha : assembleChars cs = some i) :
    i.wellFormed = true := by
  simp only [assembleChars, Option.bind_eq_bind, Option.bind_eq_some_iff] at ha
  obtain ⟨_, -, ha⟩ := ha
  split_ifs at ha
  · exact wellFormed_of_assembleSetkey ha
  · exact wellFormed_of_assembleSetiv ha
  · exact wellFormed_of_assembleProcess ha
  · exact wellFormed_of_assembleGenblock ha

/-- Settles O54: the readers read back what the forms write, each assembler checks the lengths, and the rest is what holds
of every encoded command. -/
theorem assembledLinesAreWellFormed : Obligations.AssembledLinesAreWellFormed := by
  unfold Obligations.AssembledLinesAreWellFormed
  refine ⟨fun i hw => ⟨linesOf_ne_nil hw, fun l hl => assembleChars_of_mem_linesOf hw hl⟩, fun cs i ha => ?_⟩
  have hw := wellFormed_of_assembleChars ha
  exact ⟨hw, decode_encode i, (transactionWellFormed_encode i).trans hw⟩

end Sys2Proof.Machine
end

-- Proofs: the state initializer (R67 to R72)
section
/-! PROOFS. SETKEY and SETIV write disjoint words of a slot, so their order does not matter (R69), a later SETIV undoes
what keystream commands did to the counter (R71), and a slot set up in either order is ready (R72). -/

namespace Sys2Proof.Machine

open Host (Outcome)

/-! ### The words of a set up slot (R67, R70) -/

theorem keyHalf_getD (k : List Byte) (base : Nat) {i : Nat} (hi : i < 4) :
    (keyHalf k base).getD i 0 = le32 k (base + 4 * i) := by
  interval_cases i <;> rfl

/-- A constant block and two key halves, read word by word. -/
theorem keyGroups_getD (cs : Vector Word 4) (k : List Byte) (base : Nat) {i : Nat} (hi : i < 4) :
    (cs.toList ++ (keyHalf k 0 ++ keyHalf k base)).getD i 0 = cs.toList.getD i 0 ∧
    (cs.toList ++ (keyHalf k 0 ++ keyHalf k base)).getD (4 + i) 0 = le32 k (4 * i) ∧
    (cs.toList ++ (keyHalf k 0 ++ keyHalf k base)).getD (8 + i) 0 = le32 k (base + 4 * i) := by
  have hcs : cs.toList.length = 4 := by simp
  have hhalf : (keyHalf k 0).length = 4 := rfl
  refine ⟨List.getD_append _ _ _ _ (by omega), ?_, ?_⟩
  · rw [List.getD_append_right _ _ _ _ (by omega), hcs, Nat.add_sub_cancel_left,
      List.getD_append _ _ _ _ (by omega), keyHalf_getD k 0 hi, Nat.zero_add]
  · have hsub : 8 + i - 4 - 4 = i := by omega
    rw [List.getD_append_right _ _ _ _ (by omega), hcs, List.getD_append_right _ _ _ _ (by omega), hhalf, hsub,
      keyHalf_getD k base hi]

/-- R67: the constant block and the two key halves that KSZ selects. -/
theorem keyWords_getD (consts : Constants) (ksz : Word) (k : List Byte) {i : Nat} (hi : i < 4) :
    (keyWords consts ksz k).getD i 0 =
      (if ksz = 32 then consts.sigma.toList.getD i 0 else consts.tau.toList.getD i 0) ∧
    (keyWords consts ksz k).getD (4 + i) 0 = le32 k (4 * i) ∧
    (keyWords consts ksz k).getD (8 + i) 0 = (if ksz = 32 then le32 k (16 + 4 * i) else le32 k (4 * i)) := by
  by_cases hz : ksz = 32
  · simp only [keyWords, if_pos hz]
    exact keyGroups_getD consts.sigma k 16 hi
  · simp only [keyWords, if_neg hz]
    simpa only [Nat.zero_add] using keyGroups_getD consts.tau k 0 hi

theorem wordAt_loadKey_low (consts : Constants) (ksz : Word) (k : List Byte) (c : Slot) {j : Nat} (hj : j < 12) :
    wordAt (loadKey consts ksz k c).words j = (keyWords consts ksz k).getD j 0 := by
  have hlt : j < (keyWords consts ksz k).length := by rwa [keyWords_length]
  rw [wordAt_eq_getElem _ (by omega), loadKey_get, List.getElem?_eq_getElem hlt, Option.getD_some,
    List.getD_eq_getElem _ _ hlt]

theorem wordAt_loadIv_counter (n : List Byte) (ctr : Word) (c : Slot) : wordAt (loadIv n ctr c).words 12 = ctr := by
  rw [wordAt_eq_getElem _ (by decide), loadIv_get]
  rfl

theorem wordAt_loadIv_nonce (n : List Byte) (ctr : Word) (c : Slot) {i : Nat} (hi : i < 3) :
    wordAt (loadIv n ctr c).words (13 + i) = le32 n (4 * i) := by
  rw [wordAt_eq_getElem _ (by omega), loadIv_get]
  interval_cases i <;> rfl

/-- Two slots are equal when their flags and their sixteen words are. -/
theorem Slot.ext_wordAt {c c' : Slot} (hkey : c.keyValid = c'.keyValid) (hiv : c.ivValid = c'.ivValid)
    (hlow : ∀ j, j < 12 → wordAt c.words j = wordAt c'.words j)
    (hhigh : ∀ j, 12 ≤ j → j < 16 → wordAt c.words j = wordAt c'.words j) : c = c' := by
  have hwords : c.words = c'.words := by
    apply Vector.ext
    intro j hj
    rw [← wordAt_eq_getElem _ hj, ← wordAt_eq_getElem _ hj]
    rcases Nat.lt_or_ge j 12 with h12 | h12
    · exact hlow j h12
    · exact hhigh j h12 hj
  exact congr (congr (congrArg Slot.mk hwords) hkey) hiv

/-- R70: words 12 to 15 are the operands' alone, whatever the slot held. -/
theorem wordAt_loadIv_high (n : List Byte) (ctr : Word) (c c' : Slot) {j : Nat} (h12 : 12 ≤ j) (hj : j < 16) :
    wordAt (loadIv n ctr c).words j = wordAt (loadIv n ctr c').words j := by
  obtain rfl | ⟨i, hi, rfl⟩ : j = 12 ∨ ∃ i, i < 3 ∧ j = 13 + i := by
    rcases Nat.eq_or_lt_of_le h12 with he | hlt
    · exact .inl he.symm
    · exact .inr ⟨j - 13, by omega, by omega⟩
  · rw [wordAt_loadIv_counter, wordAt_loadIv_counter]
  · rw [wordAt_loadIv_nonce n ctr c hi, wordAt_loadIv_nonce n ctr c' hi]

/-- R69: SETKEY and SETIV write disjoint words and flags of a slot. -/
theorem loadKey_loadIv (consts : Constants) (ksz : Word) (k n : List Byte) (ctr : Word) (c : Slot) :
    loadKey consts ksz k (loadIv n ctr c) = loadIv n ctr (loadKey consts ksz k c) := by
  refine Slot.ext_wordAt rfl rfl (fun j hj => ?_) fun j h12 hj => ?_
  · rw [wordAt_loadIv_low n ctr _ hj, wordAt_loadKey_low consts ksz k _ hj, wordAt_loadKey_low consts ksz k _ hj]
  · rw [wordAt_loadKey_high consts ksz k _ h12 hj]
    exact wordAt_loadIv_high n ctr _ _ h12 hj

/-- R71: SETIV writes the counter, the only word that keystream commands move. -/
theorem loadIv_slotAfter (n : List Byte) (ctr : Word) (m : Nat) (c : Slot) :
    loadIv n ctr (slotAfter m c) = loadIv n ctr c := by
  refine Slot.ext_wordAt rfl rfl (fun j hj => ?_) fun j h12 hj => wordAt_loadIv_high n ctr _ _ h12 hj
  rw [wordAt_loadIv_low n ctr _ hj, wordAt_loadIv_low n ctr _ hj, wordAt_slotAfter_other m c (by omega) (by omega)]

/-! ### The branches of SETKEY and SETIV (R67, R70) -/

theorem exec_setkey_ok {h : Handle} {ksz : Word} {k : List Byte} {s : State} {c : Slot} (hk : k.length = 32)
    (hz : ksz = 16 ∨ ksz = 32) (hc : slotAt s h = some c) :
    exec (.setkey h ksz k) s = .next (Effect.state ⟨.ok, [], loadKey s.constants ksz k c⟩ h s) :=
  (execSetkey_present hk hc).trans (by rw [effect, if_pos hz, Effect.outcome])

theorem exec_setkey_badSize {h : Handle} {ksz : Word} {k : List Byte} {s : State} {c : Slot} (hk : k.length = 32)
    (h16 : ksz ≠ 16) (h32 : ksz ≠ 32) (hc : slotAt s h = some c) :
    exec (.setkey h ksz k) s = .next (complete .invalidKeySize [] s) :=
  (execSetkey_present hk hc).trans
    (by rw [effect, if_neg (not_or.2 ⟨h16, h32⟩), Effect.outcome, Effect.state, setSlot_self hc])

theorem exec_setiv_ok {h : Handle} {n : List Byte} {ctr : Word} {s : State} {c : Slot} (hn : n.length = 12)
    (hc : slotAt s h = some c) :
    exec (.setiv h n ctr) s = .next (Effect.state ⟨.ok, [], loadIv n ctr c⟩ h s) :=
  execSetiv_present hn hc

/-- Settles O15: one lemma for each branch of R67, and the words and flags of `loadKey` in the last. -/
theorem setkeyFollowsItsRule : Obligations.SetkeyFollowsItsRule := by
  unfold Obligations.SetkeyFollowsItsRule
  intro h ksz k s
  refine ⟨BitVec.or_comm _ _, fun hk => ?_, fun hk hp => ?_, fun hk hp h16 h32 => ?_, fun c hk hc hz => ?_⟩
  · exact exec_malformed (by simp [Instr.wellFormed, hk])
  · exact absentHandlesReturnNullContext.2 (.setkey h ksz k) s (by simp [Instr.wellFormed, hk]) hp
  · obtain ⟨_, hc⟩ := slotAt_of_present hp
    exact ⟨_, exec_setkey_badSize hk h16 h32 hc, rfl, completedWith_complete .invalidKeySize [] s h⟩
  · refine ⟨_, _, exec_setkey_ok hk hz hc, Effect.completedWith_state _ hc, Effect.slotAt_state_same _ hc, rfl, rfl,
      fun i hi => ?_⟩
    rw [wordAt_loadKey_low _ ksz k c (by omega), wordAt_loadKey_low _ ksz k c (by omega),
      wordAt_loadKey_low _ ksz k c (by omega)]
    obtain ⟨hconst, hlo, hhi⟩ := keyWords_getD s.constants ksz k hi
    exact ⟨hconst, hlo, hhi, wordAt_loadKey_high _ ksz k c (by omega) (by omega)⟩

/-- Settles O17: one lemma for each branch of R70, and the words and flags of `loadIv` in the last. -/
theorem setivFollowsItsRule : Obligations.SetivFollowsItsRule := by
  unfold Obligations.SetivFollowsItsRule
  intro h n ctr s
  refine ⟨BitVec.or_comm _ _, fun hn => ?_, fun hn hp => ?_, fun c hn hc => ?_⟩
  · exact exec_malformed (by simp [Instr.wellFormed, hn])
  · exact absentHandlesReturnNullContext.2 (.setiv h n ctr) s (by simp [Instr.wellFormed, hn]) hp
  · exact ⟨_, _, exec_setiv_ok hn hc, Effect.completedWith_state _ hc, Effect.slotAt_state_same _ hc, rfl, rfl,
      wordAt_loadIv_counter n ctr c, fun i hi => wordAt_loadIv_nonce n ctr c hi, fun i hi => wordAt_loadIv_low n ctr c hi⟩

/-! ### The key bytes KSZ does not select (R58, R67) -/

/-- Two well-formed commands on one handle that have the same effect on every slot have the same outcome in every state. -/
theorem exec_eq_of_effect_eq {i j : Instr} {s : State} (hi : i.wellFormed = true) (hj : j.wellFormed = true)
    (hh : i.handle = j.handle) (he : ∀ c, effect s.constants c i = effect s.constants c j) : exec i s = exec j s := by
  cases hc : slotAt s i.handle with
  | none => rw [exec_absent hi hc, exec_absent hj (hh ▸ hc)]
  | some c => rw [exec_present hi hc, exec_present hj (hh ▸ hc), he, hh]

theorem byteAt_eq_of_take_eq {k k' : List Byte} {m i : Nat} (ht : k.take m = k'.take m) (hi : i < m) :
    byteAt k i = byteAt k' i := by
  have hget : k[i]? = k'[i]? := by
    rw [← List.getElem?_take_of_lt hi, ht, List.getElem?_take_of_lt hi]
  rw [byteAt, byteAt, List.getD_eq_getElem?_getD, List.getD_eq_getElem?_getD, hget]

theorem le32_eq_of_take_eq {k k' : List Byte} {m i : Nat} (ht : k.take m = k'.take m) (hi : i + 3 < m) :
    le32 k i = le32 k' i := by
  simp only [le32, byteAt_eq_of_take_eq ht (show i < m by omega), byteAt_eq_of_take_eq ht (show i + 1 < m by omega),
    byteAt_eq_of_take_eq ht (show i + 2 < m by omega), byteAt_eq_of_take_eq ht hi]

/-- R58, R67: with a 16-byte key the words come from the first key half alone. -/
theorem loadKey_16_eq_of_take_eq (consts : Constants) {k k' : List Byte} (ht : k.take 16 = k'.take 16) (c : Slot) :
    loadKey consts 16 k c = loadKey consts 16 k' c := by
  have hhalf : keyHalf k 0 = keyHalf k' 0 := by
    simp [keyHalf, le32_eq_of_take_eq ht]
  simp [loadKey, hhalf]

/-- Settles O16: equal effects on every slot, for KSZ 16 because only the first key half is loaded, for a bad KSZ because
nothing is. -/
theorem ignoredKeyBytesDoNotMatter : Obligations.IgnoredKeyBytesDoNotMatter := by
  unfold Obligations.IgnoredKeyBytesDoNotMatter
  intro h ksz k k' s hk hk'
  have hsame : (∀ c, effect s.constants c (.setkey h ksz k) = effect s.constants c (.setkey h ksz k')) →
      exec (.setkey h ksz k) s = exec (.setkey h ksz k') s :=
    exec_eq_of_effect_eq (by simp [Instr.wellFormed, hk]) (by simp [Instr.wellFormed, hk']) rfl
  refine ⟨fun h16 ht => hsame fun c => ?_, fun h16 h32 => hsame fun c => ?_⟩
  · subst h16
    rw [effect, effect, loadKey_16_eq_of_take_eq _ ht]
  · rw [effect, effect, if_neg (not_or.2 ⟨h16, h32⟩), if_neg (not_or.2 ⟨h16, h32⟩)]

/-! ### Two setups on one slot (R69, R72) -/

theorem runCommands_cons_next {i : Instr} {s t : State} (ht : exec i s = .next t) (is : List Instr) :
    runCommands (i :: is) s = runCommands is t := by
  rw [runCommands, ht]

/-- The state two OK setups of the slot of `h` leave, which write `c₁` and then `c₂`. -/
def setupState (h : Handle) (c₁ c₂ : Slot) (s : State) : State :=
  Effect.state ⟨.ok, [], c₂⟩ h (Effect.state ⟨.ok, [], c₁⟩ h s)

/-- What the first setup wrote to the slot is written again by the second. -/
theorem setupState_slots (h : Handle) (c₁ c₂ : Slot) (s : State) :
    (setupState h c₁ c₂ s).slots = s.slots.set (h.toNat - 1) c₂ := by
  simp [setupState, Effect.state]

theorem slotAt_setupState {h : Handle} {s : State} {c : Slot} (hc : slotAt s h = some c) (c₁ c₂ : Slot) :
    slotAt (setupState h c₁ c₂ s) h = some c₂ :=
  Effect.slotAt_state_same _ (Effect.slotAt_state_same _ hc)

theorem runCommands_setkey_setiv {h : Handle} {ksz ctr : Word} {k n : List Byte} {s : State} {c : Slot}
    (hk : k.length = 32) (hn : n.length = 12) (hz : ksz = 16 ∨ ksz = 32) (hc : slotAt s h = some c) (is : List Instr) :
    runCommands (.setkey h ksz k :: .setiv h n ctr :: is) s = runCommands is
      (setupState h (loadKey s.constants ksz k c) (loadIv n ctr (loadKey s.constants ksz k c)) s) := by
  rw [runCommands_cons_next (exec_setkey_ok hk hz hc),
    runCommands_cons_next (exec_setiv_ok hn (Effect.slotAt_state_same _ hc)), setupState]

/-- The other order leaves the same slot (R69). -/
theorem runCommands_setiv_setkey {h : Handle} {ksz ctr : Word} {k n : List Byte} {s : State} {c : Slot}
    (hk : k.length = 32) (hn : n.length = 12) (hz : ksz = 16 ∨ ksz = 32) (hc : slotAt s h = some c) (is : List Instr) :
    runCommands (.setiv h n ctr :: .setkey h ksz k :: is) s = runCommands is
      (setupState h (loadIv n ctr c) (loadIv n ctr (loadKey s.constants ksz k c)) s) := by
  rw [runCommands_cons_next (exec_setiv_ok hn hc),
    runCommands_cons_next (exec_setkey_ok hk hz (Effect.slotAt_state_same _ hc)), ← loadKey_loadIv]
  rfl

/-- Settles O18: either order writes the slot whose words 0 to 11 are SETKEY's and words 12 to 15 SETIV's. -/
theorem setkeyAndSetivCommute : Obligations.SetkeyAndSetivCommute := by
  unfold Obligations.SetkeyAndSetivCommute
  intro h ksz ctr k n s hk hn hz hp
  obtain ⟨_, hc⟩ := slotAt_of_present hp
  refine ⟨_, _, runCommands_setkey_setiv hk hn hz hc [], runCommands_setiv_setkey hk hn hz hc [], ?_, rfl⟩
  rw [setupState_slots, setupState_slots]

/-! ### Keystream commands on a slot (R71, R72, R85) -/

theorem isKeystreamCommand_handle {h : Handle} {i : Instr} (hi : isKeystreamCommand h i = true) : i.handle = h := by
  cases i with
  | setkey h' ksz k => cases hi
  | setiv h' n ctr => cases hi
  | process h' len din => exact beq_iff_eq.1 (Bool.and_eq_true_iff.1 hi).1
  | genblock h' => exact beq_iff_eq.1 hi

theorem isKeystreamCommand_wellFormed {h : Handle} {i : Instr} (hi : isKeystreamCommand h i = true) :
    i.wellFormed = true := by
  cases i with
  | setkey h' ksz k => cases hi
  | setiv h' n ctr => cases hi
  | process h' len din => exact (Bool.and_eq_true_iff.1 hi).2
  | genblock h' => rfl

/-- R85, R91: a keystream command that completes returns OK and leaves the slot as many blocks further on as its input
takes. -/
theorem effect_of_isKeystreamCommand {consts : Constants} {c : Slot} {h : Handle} {i : Instr} {e : Effect}
    (hi : isKeystreamCommand h i = true) (he : effect consts c i = some e) :
    e.code = .ok ∧ e.slot = slotAfter (blocksOf (keystreamInput i)) c := by
  cases i with
  | setkey h' ksz k => cases hi
  | setiv h' n ctr => cases hi
  | process h' len din =>
    have hlen : din.length = len.toNat := by simpa [Instr.wellFormed] using isKeystreamCommand_wellFormed hi
    rw [eq_of_effect_process he, keystreamInput, blocksOf, hlen]
    exact ⟨rfl, rfl⟩
  | genblock h' =>
    rw [eq_of_effect_genblock he, keystreamInput, blocksOf, List.length_replicate]
    exact ⟨rfl, rfl⟩

/-- R72: on a ready slot no command faults. -/
theorem exists_effect_of_ready (consts : Constants) {c : Slot} (hr : ready c = true) (i : Instr) :
    ∃ e, effect consts c i = some e := by
  cases i with
  | setkey h ksz k => exact ⟨_, rfl⟩
  | setiv h n ctr => exact ⟨_, rfl⟩
  | process h len din => exact ⟨_, if_pos (.inr hr)⟩
  | genblock h => exact ⟨_, if_pos hr⟩

/-- R72: on a ready slot every keystream command returns OK. -/
theorem exec_ok_of_ready {h : Handle} {i : Instr} {s : State} {c : Slot} (hi : isKeystreamCommand h i = true)
    (hc : slotAt s h = some c) (hr : ready c = true) : ∃ t, exec i s = .next t ∧ t.status = 0 := by
  obtain rfl := isKeystreamCommand_handle hi
  obtain ⟨e, he⟩ := exists_effect_of_ready s.constants hr i
  refine ⟨e.state i.handle s, ?_, ?_⟩
  · rw [exec_present (isKeystreamCommand_wellFormed hi) hc, he, Effect.outcome]
  · rw [Effect.state_status, (effect_of_isKeystreamCommand hi he).1]
    rfl

/-- R85: a completed run of keystream commands moves the counter of its slot and nothing else of it. -/
theorem slotAt_of_runCommands {h : Handle} {is : List Instr} {s t : State} {c : Slot}
    (his : ∀ i ∈ is, isKeystreamCommand h i = true) (ht : runCommands is s = .next t) (hc : slotAt s h = some c) :
    slotAt t h = some (slotAfter (blocksUsed is) c) := by
  induction is generalizing s c with
  | nil =>
    obtain rfl := Outcome.next.inj ht
    rw [hc, blocksUsed, slotAfter_zero]
  | cons i is ih =>
    obtain ⟨hi, his⟩ := List.forall_mem_cons.1 his
    cases hu : exec i s with
    | fault r => simp [runCommands, hu] at ht
    | refused r => simp [runCommands, hu] at ht
    | next u =>
      rw [runCommands_cons_next hu] at ht
      obtain rfl := isKeystreamCommand_handle hi
      obtain ⟨e, he, rfl⟩ := exec_next_of_slotAt hu hc
      rw [ih his ht (e.slotAt_state_same hc), (effect_of_isKeystreamCommand hi he).2, slotAfter_slotAfter, blocksUsed]

/-- Settles O19: the run moved only the counter, which SETIV writes. -/
theorem setivRestartsTheKeystream : Obligations.SetivRestartsTheKeystream := by
  unfold Obligations.SetivRestartsTheKeystream
  intro h n ctr is s t hn hp his ht
  obtain ⟨_, hc⟩ := slotAt_of_present hp
  have hct := slotAt_of_runCommands his ht hc
  refine ⟨_, _, exec_setiv_ok hn hct, exec_setiv_ok hn hc, ?_⟩
  rw [Effect.slotAt_state_same _ hct, Effect.slotAt_state_same _ hc, loadIv_slotAfter]

/-- Settles O49: in either order the setups set both flags, and a ready slot serves every keystream command. -/
theorem setupMakesASlotReady : Obligations.SetupMakesASlotReady := by
  unfold Obligations.SetupMakesASlotReady
  intro h ksz ctr k n j s hk hn hz hp hj
  obtain ⟨_, hc⟩ := slotAt_of_present hp
  have hserved {c₁ c₂ : Slot} (hr : ready c₂ = true) :
      ∃ t, runCommands [j] (setupState h c₁ c₂ s) = .next t ∧ t.status = 0 := by
    obtain ⟨t, ht, hstatus⟩ := exec_ok_of_ready hj (slotAt_setupState hc c₁ c₂) hr
    exact ⟨t, runCommands_cons_next ht [], hstatus⟩
  rw [runCommands_setkey_setiv hk hn hz hc, runCommands_setiv_setkey hk hn hz hc]
  exact ⟨hserved (by simp [ready]), hserved (by simp [ready])⟩

end Sys2Proof.Machine
end

-- Proofs: the block transform (R73 to R80)
section
/-! PROOFS. A line of the quarter round is two word assignments; lines on disjoint positions commute, so the order of a
pass's quarter rounds does not matter (R77), and the output bytes are read off the serialised words (R42, R80). -/

namespace Sys2Proof.Machine

/-! ### Rotation (R73) -/

theorem rotl32_getLsbD (v : Word) {n i : Nat} (hn : n < 32) (hi : i < 32) :
    (rotl32 v n).getLsbD i = v.getLsbD ((i + 32 - n) % 32) := by
  rw [rotl32_eq_rotateLeft v hn, BitVec.getLsbD_rotateLeft_of_le hn]
  by_cases hin : i < n
  · rw [decide_eq_true hin, cond_true, Nat.mod_eq_of_lt (by omega)]
    congr 1
    omega
  · have hwrap : (i + 32 - n) % 32 = i - n := by omega
    rw [decide_eq_false hin, cond_false, hwrap, decide_eq_true hi, Bool.true_and]

/-- Settles O3: `rotl32` is the rotation of bit vectors, whose bits the library gives; all four amounts are below 32. -/
theorem wordOperationsFollowTheirLaws : Obligations.WordOperationsFollowTheirLaws := by
  unfold Obligations.WordOperationsFollowTheirLaws
  refine ⟨fun v n i hn hi => rotl32_getLsbD v ?_ hi, BitVec.toNat_add⟩
  omega

/-! ### The words a line and a quarter round leave (R74) -/

section
variable (x : Vector Word 16) {p q r : Fin 16} (n : Nat)

theorem quarterLine_getElem_sum (hpr : p ≠ r) : (quarterLine x p q r n)[p] = x[p] + x[q] := by
  simp [quarterLine, Vector.getElem_set_ne, Fin.val_ne_of_ne hpr.symm]

theorem quarterLine_getElem_rotated (hpr : p ≠ r) :
    (quarterLine x p q r n)[r] = rotl32 (x[r] ^^^ (x[p] + x[q])) n := by
  simp [quarterLine, Vector.getElem_set_ne, Fin.val_ne_of_ne hpr]

theorem quarterLine_getElem_other {j : Fin 16} (hp : j ≠ p) (hr : j ≠ r) : (quarterLine x p q r n)[j] = x[j] := by
  simp [quarterLine, Vector.getElem_set_ne, Fin.val_ne_of_ne hp.symm, Fin.val_ne_of_ne hr.symm]

end

theorem quarterRound_getElem_other (x : Vector Word 16) {a b c d j : Fin 16} (ha : j ≠ a) (hb : j ≠ b) (hc : j ≠ c)
    (hd : j ≠ d) : (quarterRound x a b c d)[j] = x[j] := by
  simp only [quarterRound]
  rw [quarterLine_getElem_other _ _ hc hb, quarterLine_getElem_other _ _ ha hd, quarterLine_getElem_other _ _ hc hb,
    quarterLine_getElem_other _ _ ha hd]

/-- Settles O20: each line reads what the lines before it left, word by word. -/
theorem quarterRoundFollowsItsLines : Obligations.QuarterRoundFollowsItsLines := by
  unfold Obligations.QuarterRoundFollowsItsLines
  refine ⟨fun x a b c d hab hac had hbc hbd hcd => ?_, passGroups_nodup⟩
  refine ⟨_, _, _, _, _, _, _, _, rfl, rfl, rfl, rfl, rfl, rfl, rfl, rfl, ?_, ?_, ?_, ?_,
    fun j ha hb hc hd => quarterRound_getElem_other x ha hb hc hd⟩ <;>
  simp only [quarterRound, quarterLine_getElem_sum, quarterLine_getElem_rotated, quarterLine_getElem_other, ne_eq,
    not_false_eq_true, hab, hac, had, hbd, hcd, hab.symm, hac.symm, hbc.symm, hbd.symm, hcd.symm]

/-! ### Quarter rounds on disjoint positions commute (R77) -/

/-- Two assignments commute when neither writes a word the other reads or writes. -/
theorem setWord_commute {p q p' q' : Fin 16} (hpp : p ≠ p') (hpq : p ≠ q') (hqp : q ≠ p') (f g : Word → Word → Word) :
    Function.Commute (fun x : Vector Word 16 => x.set p (f x[p] x[q])) fun x => x.set p' (g x[p'] x[q']) := by
  intro x
  have hpp' := Fin.val_ne_of_ne hpp
  have hpq' := Fin.val_ne_of_ne hpq
  have hqp' := Fin.val_ne_of_ne hqp
  simp only [Fin.getElem_fin, Vector.getElem_set_ne _ _ hpp', Vector.getElem_set_ne _ _ hpp'.symm,
    Vector.getElem_set_ne _ _ hpq', Vector.getElem_set_ne _ _ hqp'.symm]
  exact Vector.set_comm _ _ hpp'.symm

/-- What a line of R74 assigns to its last word `u`, where `v` is the sum before it. -/
def rotXor (n : Nat) (u v : Word) : Word := rotl32 (u ^^^ v) n

/-- A line is the assignment of the sum and then that of the rotated word (R74). -/
theorem quarterLine_eq_comp (p q r : Fin 16) (n : Nat) : (fun x => quarterLine x p q r n) =
    (fun x : Vector Word 16 => x.set r (rotXor n x[r] x[p])) ∘ fun x => x.set p (x[p] + x[q]) := rfl

/-- The two assignments of one line commute with those of a line on other positions. -/
theorem quarterLine_commute {p q r p' q' r' : Fin 16} (h : [p, q, r].Disjoint [p', q', r']) (n n' : Nat) :
    Function.Commute (fun x => quarterLine x p q r n) fun x => quarterLine x p' q' r' n' := by
  obtain ⟨⟨hpp, hpq, hpr⟩, ⟨hqp, -, hqr⟩, hrp, hrq, hrr⟩ : (p ≠ p' ∧ p ≠ q' ∧ p ≠ r') ∧ (q ≠ p' ∧ q ≠ q' ∧ q ≠ r') ∧
      r ≠ p' ∧ r ≠ q' ∧ r ≠ r' := by
    simpa [List.disjoint_left] using h
  rw [quarterLine_eq_comp, quarterLine_eq_comp]
  exact .comp_left
    (.comp_right (setWord_commute hrr hrp hpr (rotXor n) (rotXor n')) (setWord_commute hrp hrq hpp (rotXor n) (· + ·)))
    (.comp_right (setWord_commute hpr hpp hqr (· + ·) (rotXor n')) (setWord_commute hpp hpq hqp (· + ·) (· + ·)))

/-- What commutes with every line on positions of the group commutes with the group's quarter round. -/
theorem commute_quarterRound {f : Vector Word 16 → Vector Word 16} {a b c d : Fin 16}
    (hf : ∀ p q r n, [p, q, r] ⊆ [a, b, c, d] → Function.Commute f fun x => quarterLine x p q r n) :
    Function.Commute f fun x => quarterRound x a b c d :=
  have habd : [a, b, d] ⊆ [a, b, c, d] := by simp
  have hcdb : [c, d, b] ⊆ [a, b, c, d] := by simp
  (hf c d b 7 hcdb).comp_right <| (hf a b d 8 habd).comp_right <| (hf c d b 12 hcdb).comp_right (hf a b d 16 habd)

theorem quarterRound_commute {a b c d a' b' c' d' : Fin 16} (h : [a, b, c, d].Disjoint [a', b', c', d']) :
    Function.Commute (fun x => quarterRound x a b c d) fun x => quarterRound x a' b' c' d' :=
  commute_quarterRound fun p' q' r' n' hsub' =>
    have hline : Function.Commute (fun x => quarterLine x p' q' r' n') fun x => quarterRound x a b c d :=
      commute_quarterRound fun _ _ _ n hsub => quarterLine_commute (fun _ hi' hi => h (hsub hi) (hsub' hi')) n' n
    hline.symm

/-- The positions of a group, as R77 counts them. -/
def groupPositions (g : Fin 16 × Fin 16 × Fin 16 × Fin 16) : List (Fin 16) := [g.1, g.2.1, g.2.2.1, g.2.2.2]

/-- The quarter round on a group, as a function of the working copy. -/
def groupRound (g : Fin 16 × Fin 16 × Fin 16 × Fin 16) (x : Vector Word 16) : Vector Word 16 :=
  quarterRound x g.1 g.2.1 g.2.2.1 g.2.2.2

theorem quarterPass_eq_foldl (x : Vector Word 16) (gs : List (Fin 16 × Fin 16 × Fin 16 × Fin 16)) :
    quarterPass x gs = gs.foldl (fun y g => groupRound g y) x := by
  induction gs generalizing x with
  | nil => rfl
  | cons g gs ih => exact ih _

/-- A pass whose groups partition the positions gives the same result in any order of its groups. -/
theorem quarterPass_eq_of_perm {gs gs' : List (Fin 16 × Fin 16 × Fin 16 × Fin 16)}
    (hparts : (gs.flatMap groupPositions).Perm (List.finRange 16)) (hperm : gs'.Perm gs) (x : Vector Word 16) :
    quarterPass x gs' = quarterPass x gs := by
  have hdisjoint : gs.Pairwise fun g g' => (groupPositions g).Disjoint (groupPositions g') :=
    (List.nodup_flatMap.1 (hparts.nodup_iff.2 (List.nodup_finRange 16))).2
  have hpairwise : gs.Pairwise fun g g' => Function.Commute (groupRound g) (groupRound g') :=
    hdisjoint.imp quarterRound_commute
  have hcommute : ∀ g ∈ gs, ∀ g' ∈ gs, Function.Commute (groupRound g) (groupRound g') :=
    hpairwise.forall_of_forall_of_flip (fun g _ => .refl (groupRound g)) (hpairwise.imp .symm)
  rw [quarterPass_eq_foldl, quarterPass_eq_foldl]
  refine (hperm.symm.foldl_eq' (fun g hg g' hg' y => ?_) x).symm
  exact hcommute g' hg' g hg y

theorem columnGroups_partition : (columnGroups.flatMap groupPositions).Perm (List.finRange 16) := by decide

theorem diagonalGroups_partition : (diagonalGroups.flatMap groupPositions).Perm (List.finRange 16) := by decide

/-- Settles O21: the groups of a pass partition the positions, and quarter rounds on disjoint groups commute. -/
theorem quarterRoundsOfAPassCommute : Obligations.QuarterRoundsOfAPassCommute := by
  unfold Obligations.QuarterRoundsOfAPassCommute
  refine ⟨?_, fun x gs hgs => quarterPass_eq_of_perm columnGroups_partition hgs x,
    fun x gs hgs => quarterPass_eq_of_perm diagonalGroups_partition hgs x⟩
  rintro gs (rfl | rfl)
  · exact columnGroups_partition
  · exact diagonalGroups_partition

/-! ### The double round and the block (R78, R80) -/

/-- Settles O22: the passes run their groups in the order of the two lists. -/
theorem doubleRoundIsColumnsThenDiagonals : Obligations.DoubleRoundIsColumnsThenDiagonals := by
  unfold Obligations.DoubleRoundIsColumnsThenDiagonals
  intro x
  exact ⟨_, _, _, _, _, _, _, _, rfl, rfl, rfl, rfl, rfl, rfl, rfl, rfl, rfl⟩

theorem bytes32_getD (w : Word) {j : Nat} (hj : j < 4) : (bytes32 w).getD j 0 = w.extractLsb' (8 * j) 8 := by
  interval_cases j <;> rfl

/-- Byte `4i + j` of the serialised words is byte `j` of word `i` (R16, R42). -/
theorem serialize_getD {ws : List Word} {i j : Nat} (hi : i < ws.length) (hj : j < 4) :
    (serialize ws).getD (4 * i + j) 0 = (ws.getD i 0).extractLsb' (8 * j) 8 := by
  induction ws generalizing i with
  | nil => simp at hi
  | cons w ws ih =>
    rw [serialize_cons]
    cases i with
    | zero =>
      rw [Nat.mul_zero, Nat.zero_add, List.getD_append _ _ _ _ hj]
      exact bytes32_getD w hj
    | succ i =>
      have hskip : 4 * (i + 1) + j - (bytes32 w).length = 4 * i + j := by rw [bytes32_length]; omega
      rw [List.getD_append_right _ _ _ _ (by rw [bytes32_length]; omega), hskip, ih (by simpa using hi)]
      rfl

theorem serialize_replicate_zero (n : Nat) : serialize (List.replicate n 0) = List.replicate (4 * n) 0 := by
  induction n with
  | zero => rfl
  | succ n ih =>
    rw [List.replicate_succ, serialize_cons, ih]
    rfl

theorem wordAt_blockWords (s : Vector Word 16) {i : Nat} (hi : i < 16) :
    wordAt (blockWords s) i = wordAt (doubleRounds 10 s) i + wordAt s i := by
  simp [wordAt_eq_getElem, hi, blockWords]

theorem blockTransform_getD (s : Vector Word 16) {i j : Nat} (hi : i < 16) (hj : j < 4) :
    (blockTransform s).getD (4 * i + j) 0 =
      (wordAt (doubleRounds 10 s) i + wordAt s i).extractLsb' (8 * j) 8 := by
  rw [← wordAt_blockWords s hi]
  exact serialize_getD (by simpa using hi) hj

/-- The working copy of 16 zero words. -/
def zeroWords : Vector Word 16 := Vector.replicate 16 0

theorem quarterLine_zeroWords (p q r : Fin 16) (n : Nat) : quarterLine zeroWords p q r n = zeroWords := by
  have hword (i : Fin 16) : zeroWords[i] = 0#32 := by simp [zeroWords]
  have hset (i : Fin 16) : zeroWords.set i 0#32 = zeroWords := by simp [zeroWords]
  have hrot : rotl32 0#32 n = 0#32 := by simp [rotl32]
  simp only [quarterLine, hword, BitVec.add_zero, hset, BitVec.xor_self, hrot]

theorem quarterRound_zeroWords (a b c d : Fin 16) : quarterRound zeroWords a b c d = zeroWords := by
  simp only [quarterRound, quarterLine_zeroWords]

theorem quarterPass_zeroWords (gs : List (Fin 16 × Fin 16 × Fin 16 × Fin 16)) :
    quarterPass zeroWords gs = zeroWords := by
  induction gs with
  | nil => rfl
  | cons g gs ih => rw [quarterPass, quarterRound_zeroWords, ih]

theorem doubleRounds_zeroWords (n : Nat) : doubleRounds n zeroWords = zeroWords := by
  induction n with
  | zero => rfl
  | succ n ih => rw [doubleRounds, doubleRound, quarterPass_zeroWords, quarterPass_zeroWords, ih]

/-- R80's corner: nothing in the rounds or the feed-forward makes a one out of zeros. -/
theorem blockTransform_zeroWords : blockTransform zeroWords = List.replicate 64 0 := by
  have hsum : blockWords zeroWords = zeroWords := by
    rw [blockWords, doubleRounds_zeroWords]
    simp [zeroWords]
  rw [blockTransform, hsum]
  exact serialize_replicate_zero 16

/-- Settles O23: the bytes of a serialised word, and the rounds keep the zero words. -/
theorem blockTransformSerialisesTheFeedForward : Obligations.BlockTransformSerialisesTheFeedForward := by
  unfold Obligations.BlockTransformSerialisesTheFeedForward
  exact ⟨fun s => ⟨blockTransform_length s, fun _ _ hi hj => blockTransform_getD s hi hj⟩, blockTransform_zeroWords⟩

end Sys2Proof.Machine
end

-- Proofs: the sequencer (R83 to R86)
section
/-! PROOFS. GENBLOCK has the effect of PROCESS on 64 zero bytes, so every keystream command has one closed form on a
ready slot; a run of them is that form at the counter the run has reached, and the counter comes round after 2^32
blocks. -/

namespace Sys2Proof.Machine

/-! ### GENBLOCK as PROCESS of zeros (R84) -/

theorem xorBytes_zeros (n : Nat) {ks : List Byte} (hks : ks.length = n) : xorBytes (List.replicate n 0) ks = ks := by
  apply List.ext_getElem
  · simp [xorBytes, hks]
  · intro i _ _
    simp [xorBytes]

/-- The closed form of R92 on 64 zero bytes is the block itself. -/
theorem keystreamXor_zeros (c : Slot) : keystreamXor c (List.replicate 64 0) = blockTransform c.words := by
  rw [← xorBytes_blockTransform c List.length_replicate.le, xorBytes_zeros 64 (blockTransform_length c.words)]

/-- Settles O26: both have the same effect on every slot, one block combined with zeros. -/
theorem genblockIsProcessOfZeros : Obligations.GenblockIsProcessOfZeros := by
  unfold Obligations.GenblockIsProcessOfZeros
  intro h s
  refine exec_eq_of_effect_eq rfl (beq_iff_eq.2 List.length_replicate) rfl fun c => ?_
  have hone : blockCount 64 = 1 := rfl
  have hlen : ((64 : Word) = 0 ∨ ready c = true) ↔ ready c = true := or_iff_right (by decide)
  rw [effect, effect, hone, combineBlocks_dout 1 c List.length_replicate.le, keystreamXor_zeros]
  simp only [hlen]

/-! ### The branches of GENBLOCK (R84) -/

/-- R60, R84: GENBLOCK's command word takes no operand block. -/
theorem decode_genblock_operands (h : Handle) {ops : OperandBlock} (hops : ops ≠ .empty) :
    decode ⟨(encode (.genblock h)).cw, ops⟩ = .error .malformedTransaction := by
  obtain ⟨hrsvd, -, hop, -⟩ := (encode_eq_iff_standsFor (.genblock h) _).1 rfl
  unfold decode
  rw [if_neg (not_not.2 hrsvd), hop]
  cases ops with
  | empty => exact absurd rfl hops
  | keyBlock ksz k => rfl
  | ivBlock n ctr => rfl
  | dataBlock len din => rfl

theorem exec_genblock_unready {h : Handle} {s : State} {c : Slot} (hc : slotAt s h = some c)
    (hflags : c.keyValid = false ∨ c.ivValid = false) : exec (.genblock h) s = .fault .uninitializedState := by
  have hready : ¬ ready c = true := by simpa [ready, imp_iff_not_or] using hflags
  exact (execGenblock_present hc).trans (by rw [effect, if_neg hready, Effect.outcome])

theorem exec_genblock_ready {h : Handle} {s : State} {c : Slot} (hc : slotAt s h = some c) (hkey : c.keyValid = true)
    (hiv : c.ivValid = true) :
    exec (.genblock h) s = .next (Effect.state ⟨.ok, blockTransform c.words, slotAfter 1 c⟩ h s) := by
  have hready : ready c = true := by simp [ready, hkey, hiv]
  exact (execGenblock_present hc).trans (by rw [effect, if_pos hready, Effect.outcome])

/-- Settles O25: one lemma for each branch of R84, and the words of the slot one block further on in the last. -/
theorem genblockFollowsItsRule : Obligations.GenblockFollowsItsRule := by
  unfold Obligations.GenblockFollowsItsRule
  intro h s
  refine ⟨BitVec.or_comm _ _, fun ops rest hops hgood hp => ?_, fun hp => ?_, fun c hc hflags => ?_,
    fun c hc hkey hiv => ?_⟩
  · exact step_undecoded hp hgood.1 hgood.2 (decode_genblock_operands h hops)
  · exact absentHandlesReturnNullContext.2 (.genblock h) s rfl hp
  · exact exec_genblock_unready hc hflags
  · refine ⟨_, _, exec_genblock_ready hc hkey hiv, Effect.completedWith_state _ hc, Effect.slotAt_state_same _ hc,
      hkey, hiv, ?_, fun i hi hne => wordAt_slotAfter_other 1 c hi hne⟩
    rw [wordAt_slotAfter_counter, BitVec.toNat_add]
    rfl

/-! ### Runs of keystream commands (R85, R119) -/

theorem blocksOf_genblock (h : Handle) : blocksOf (keystreamInput (.genblock h)) = 1 := by
  rw [keystreamInput, blocksOf, List.length_replicate]

theorem blocksOf_eq_blockCount {len : Word} {din : List Byte} (hd : din.length = len.toNat) :
    blocksOf din = blockCount len := by
  rw [blocksOf, blockCount, hd]

/-- The closed form of R92 for a keystream command: its input combined with the keystream, and the slot as many blocks
further on as that input takes. `exec_keystream_ready` ties it to `exec`. -/
def keystreamEffect (c : Slot) (i : Instr) : Effect :=
  ⟨.ok, keystreamXor c (keystreamInput i), slotAfter (blocksOf (keystreamInput i)) c⟩

/-- R84, R92: every keystream command on a ready slot completes with the closed form. -/
theorem exec_keystream_ready {h : Handle} {i : Instr} {s : State} {c : Slot} (hi : isKeystreamCommand h i = true)
    (hc : slotAt s h = some c) (hkey : c.keyValid = true) (hiv : c.ivValid = true) :
    exec i s = .next ((keystreamEffect c i).state h s) := by
  obtain rfl := isKeystreamCommand_handle hi
  cases i with
  | setkey h ksz k => cases hi
  | setiv h n ctr => cases hi
  | process h len din =>
    have hd : din.length = len.toNat := beq_iff_eq.1 (isKeystreamCommand_wellFormed hi)
    rw [keystreamEffect, keystreamInput, blocksOf_eq_blockCount hd]
    exact exec_process_ready hd hc hkey hiv
  | genblock h =>
    rw [keystreamEffect, blocksOf_genblock, keystreamInput, keystreamXor_zeros]
    exact exec_genblock_ready hc hkey hiv

/-- Settles O27, by induction on the run: each command moves the slot to where the next one starts. -/
theorem keystreamRunsFollowTheCounter : Obligations.KeystreamRunsFollowTheCounter := by
  unfold Obligations.KeystreamRunsFollowTheCounter
  intro h c is s hc hkey hiv his
  induction is generalizing s c with
  | nil => exact ⟨s, rfl, by rw [hc, blocksUsed, slotAfter_zero], (List.append_nil _).symm, fun _ _ => rfl⟩
  | cons i is ih =>
    obtain ⟨hi, his⟩ := List.forall_mem_cons.1 his
    have hexec := exec_keystream_ready hi hc hkey hiv
    have hnext : slotAt ((keystreamEffect c i).state h s) h = some (slotAfter (blocksOf (keystreamInput i)) c) :=
      Effect.slotAt_state_same _ hc
    obtain ⟨t, ht, hslot, hresponses, hother⟩ := ih _ _ hnext hkey hiv his
    refine ⟨t, (runCommands_cons_next hexec is).trans ht, ?_, ?_, fun h' hne => ?_⟩
    · rw [hslot, slotAfter_slotAfter, blocksUsed]
    · rw [hresponses, Effect.state_responses, List.append_assoc]
      rfl
    · rw [hother h' hne]
      exact exec_slotAt_other hexec (isKeystreamCommand_handle hi ▸ hne)

/-! ### The period of the counter (R83, R86) -/

/-- R83: the counter is taken modulo 2^32. -/
theorem slotAfter_mod (n : Nat) (c : Slot) : slotAfter (n % 2 ^ 32) c = slotAfter n c := by
  have hofNat : BitVec.ofNat 32 (n % 2 ^ 32) = BitVec.ofNat 32 n := BitVec.eq_of_toNat_eq (by simp)
  rw [slotAfter, slotAfter, hofNat]

theorem slotAfter_eq_self_iff (n : Nat) (c : Slot) : slotAfter n c = c ↔ n % 2 ^ 32 = 0 := by
  constructor
  · intro hslot
    have hcounter := wordAt_slotAfter_counter n c
    rw [hslot, left_eq_add] at hcounter
    exact congrArg BitVec.toNat hcounter
  · intro hn
    rw [← slotAfter_mod, hn, slotAfter_zero]

theorem blocksUsed_replicate_genblock (h : Handle) (n : Nat) : blocksUsed (List.replicate n (.genblock h)) = n := by
  induction n with
  | zero => rfl
  | succ n ih =>
    rw [List.replicate_succ, blocksUsed, blocksOf_genblock, ih, Nat.add_comm]

/-- R85: the response of block `k` of a run of GENBLOCKs is the block at the `k`th counter value. -/
theorem keystreamResponses_replicate_genblock (h : Handle) (n : Nat) (c : Slot) :
    keystreamResponses c (List.replicate n (.genblock h)) =
      (List.range n).map fun k => ⟨0, blockTransform (slotAfter k c).words⟩ := by
  induction n generalizing c with
  | zero => rfl
  | succ n ih =>
    rw [List.replicate_succ, keystreamResponses, blocksOf_genblock, keystreamInput, keystreamXor_zeros, ih,
      List.range_succ_eq_map]
    simp [slotAfter_slotAfter, Nat.add_comm 1]

/-- Settles O28: the run of O27 for GENBLOCKs, whose blocks and final slot see the counter modulo 2^32 only. -/
theorem keystreamRepeatsAfterItsPeriod : Obligations.KeystreamRepeatsAfterItsPeriod := by
  unfold Obligations.KeystreamRepeatsAfterItsPeriod
  intro h c n s hc hkey hiv
  have hrun : ∀ i ∈ List.replicate n (.genblock h), isKeystreamCommand h i = true := by
    intro i hi
    rw [List.eq_of_mem_replicate hi]
    exact beq_self_eq_true h
  obtain ⟨t, ht, hslot, hresponses, -⟩ := keystreamRunsFollowTheCounter h c _ s hc hkey hiv hrun
  rw [blocksUsed_replicate_genblock] at hslot
  rw [keystreamResponses_replicate_genblock] at hresponses
  refine ⟨t, _, ht, hresponses, by simp, by simp, fun k hk => ?_, ?_⟩
  · have hperiod : slotAfter (k + 2 ^ 32) c = slotAfter k c := by
      rw [← slotAfter_mod, Nat.add_mod_right, slotAfter_mod]
    have hk' : k < n := by omega
    simp only [List.getElem?_map, List.getElem?_range hk, List.getElem?_range hk', Option.map_some, hperiod]
  · rw [hslot, Option.some_inj]
    exact slotAfter_eq_self_iff n c

end Sys2Proof.Machine
end


-- Proofs: the combiner (R88 to R93)
section
/-! PROOFS. The checks PROCESS makes before its loop, what R91 and R92 read off the closed form of a completion, and that
the closed form undoes itself on a slot set up afresh (R93). -/

namespace Sys2Proof.Machine

/-! ### The checks before the loop (R88, R89) -/

theorem exec_process_unready {h : Handle} {len : Word} {din : List Byte} {s : State} {c : Slot}
    (hd : din.length = len.toNat) (hc : slotAt s h = some c) (hz : len ≠ 0)
    (hflags : c.keyValid = false ∨ c.ivValid = false) :
    exec (.process h len din) s = .fault .uninitializedState := by
  have hready : ¬ ready c = true := by simpa [ready, imp_iff_not_or] using hflags
  exact (execProcess_present hd hc).trans (by rw [effect, if_neg (not_or.2 ⟨hz, hready⟩), Effect.outcome])

/-- R89: no bytes take no block, so the slot is written with what it held. -/
theorem exec_process_empty {h : Handle} {s : State} {c : Slot} (hc : slotAt s h = some c) :
    exec (.process h 0 []) s = .next (complete .ok [] s) :=
  (execProcess_present rfl hc).trans (by
    rw [effect, if_pos (.inl rfl), Effect.outcome, Effect.state, blockCount_zero, slotAfter_zero, setSlot_self hc,
      combineBlocks_zero])

/-- Settles O29: one lemma for each check of R88, in the order of R103. -/
theorem processChecksBeforeItsLoop : Obligations.ProcessChecksBeforeItsLoop := by
  unfold Obligations.ProcessChecksBeforeItsLoop
  intro h len din s
  refine ⟨BitVec.or_comm _ _, fun hd => ?_, fun hd hp => ?_, fun c hd hc hz hflags => ?_⟩
  · exact exec_malformed (by simp [Instr.wellFormed, hd])
  · exact absentHandlesReturnNullContext.2 (.process h len din) s (by simp [Instr.wellFormed, hd]) hp
  · exact exec_process_unready hd hc hz hflags

/-- Settles O30: whatever the flags are, no byte and no block is taken. -/
theorem processOfNoBytesIsANoOp : Obligations.ProcessOfNoBytesIsANoOp := by
  unfold Obligations.ProcessOfNoBytesIsANoOp
  intro h s hp
  obtain ⟨_, hc⟩ := slotAt_of_present hp
  exact ⟨_, exec_process_empty hc, rfl, completedWith_complete .ok [] s h⟩

/-! ### What a completion emits and how far it moves the counter (R91, R92) -/

theorem wordAt_slotAfter_counter_toNat (n : Nat) (c : Slot) :
    (wordAt (slotAfter n c).words 12).toNat = ((wordAt c.words 12).toNat + n) % 2 ^ 32 := by
  rw [wordAt_slotAfter_counter, BitVec.toNat_add, BitVec.toNat_ofNat, Nat.add_mod_mod]

/-- Settles O31: the closed form byte by byte, and the words of the slot `blockCount` blocks further on. -/
theorem processFollowsTheClosedForm : Obligations.ProcessFollowsTheClosedForm := by
  unfold Obligations.ProcessFollowsTheClosedForm
  intro h len din s c hd hc hkey hiv
  exact ⟨_, _, keystreamXor c din, exec_process_ready hd hc hkey hiv, Effect.completedWith_state _ hc,
    Effect.slotAt_state_same _ hc, (keystreamXor_length c din).trans hd,
    fun i hi => keystreamXor_getD c (hi.trans_eq hd.symm), hkey, hiv,
    wordAt_slotAfter_counter_toNat (blockCount len) c, fun i hi hne => wordAt_slotAfter_other _ c hi hne⟩

/-- R91: `blockCount` is the ceiling of LEN / 64. -/
theorem blockCount_ceil (len : Word) : len.toNat ≤ 64 * blockCount len ∧ 64 * blockCount len < len.toNat + 64 := by
  unfold blockCount
  omega

/-- Settles O32: STATUS 0 leaves only the completion on a present slot, whose effect gives the bytes and the slot. -/
theorem processEmitsLenBytesAndCountsBlocks : Obligations.ProcessEmitsLenBytesAndCountsBlocks := by
  unfold Obligations.ProcessEmitsLenBytesAndCountsBlocks
  intro h len din s t ht hstatus _
  rcases exec_next_cases ht with ⟨-, rfl⟩ | ⟨c, e, hc, he, rfl⟩
  · cases (statusByte_eq_zero_iff .nullContext).1 hstatus
  · have hlength := dout_length_of_effect (wellFormed_of_exec_next ht) he
    obtain rfl := eq_of_effect_process he
    obtain ⟨hle, hlt⟩ := blockCount_ceil len
    exact ⟨c, _, _, blockCount len, hc, Effect.slotAt_state_same _ hc, rfl, hlength, hle, hlt,
      wordAt_slotAfter_counter_toNat _ c⟩

/-! ### PROCESS twice (R93) -/

/-- R93: the same keystream combined twice cancels. -/
theorem keystreamXor_keystreamXor (c : Slot) (din : List Byte) : keystreamXor c (keystreamXor c din) = din := by
  apply List.ext_getElem
  · simp
  · intro i _ _
    simp [keystreamXor_eq_mapIdx]

/-- R67, R70: SETKEY and SETIV between them write the whole slot, whatever it held. -/
theorem loadIv_loadKey_eq (consts : Constants) (ksz : Word) (k n : List Byte) (ctr : Word) (c c' : Slot) :
    loadIv n ctr (loadKey consts ksz k c) = loadIv n ctr (loadKey consts ksz k c') := by
  refine Slot.ext_wordAt (by simp) (by simp) (fun j hj => ?_) fun j h12 hj => wordAt_loadIv_high n ctr _ _ h12 hj
  rw [wordAt_loadIv_low n ctr _ hj, wordAt_loadIv_low n ctr _ hj, wordAt_loadKey_low consts ksz k _ hj,
    wordAt_loadKey_low consts ksz k _ hj]

/-- The run of R93: two setups and a PROCESS, which answers the closed form on the slot they set up. The slot `c` of the
statement is any one, as none of what the slot held is left. -/
theorem runCommands_setup_process {h : Handle} {ksz ctr len : Word} {k n din : List Byte} {s : State} (c : Slot)
    (hk : k.length = 32) (hn : n.length = 12) (hz : ksz = 16 ∨ ksz = 32) (hd : din.length = len.toNat)
    (hp : 1 ≤ h.toNat ∧ h.toNat ≤ s.nctx) :
    ∃ t, runCommands [.setkey h ksz k, .setiv h n ctr, .process h len din] s = .next t ∧
      t.responses = s.responses ++
        [⟨0, []⟩, ⟨0, []⟩, ⟨0, keystreamXor (loadIv n ctr (loadKey s.constants ksz k c)) din⟩] := by
  obtain ⟨_, hheld⟩ := slotAt_of_present hp
  rw [runCommands_setkey_setiv hk hn hz hheld, loadIv_loadKey_eq s.constants ksz k n ctr _ c]
  refine ⟨_, runCommands_cons_next (exec_process_ready hd (slotAt_setupState hheld _ _) rfl rfl) [], ?_⟩
  simp [setupState, statusByte]

/-- Settles O34: both runs set up the same slot, and its keystream cancels. -/
theorem processTwiceReturnsTheInput : Obligations.ProcessTwiceReturnsTheInput := by
  unfold Obligations.ProcessTwiceReturnsTheInput
  intro h h' ksz ctr len k n din s s' hk hn hz hd hconsts hp hp'
  obtain ⟨t, ht, hresponses⟩ := runCommands_setup_process Slot.reset hk hn hz hd hp
  have hd' := (keystreamXor_length (loadIv n ctr (loadKey s.constants ksz k Slot.reset)) din).trans hd
  obtain ⟨t', ht', hresponses'⟩ := runCommands_setup_process Slot.reset hk hn hz hd' hp'
  rw [← hconsts, keystreamXor_keystreamXor] at hresponses'
  exact ⟨t, t', _, ht, hresponses, ht', hresponses'⟩

end Sys2Proof.Machine
end

-- Proofs: errors and the order of the checks (R96 to R103)
section
/-! PROOFS. What each check of R103 decides about a command that has passed the earlier ones: first for its effect on a
present slot, then for its completion, its fault and the step that takes its transaction. -/

namespace Sys2Proof.Machine

open Host (Outcome)

/-! ### The key size and the flags of the slot (R96, R101) -/

/-- The cause of INVALID_KEY_SIZE: a SETKEY whose KSZ is not in {16, 32} (R96). -/
def HasBadKeySize (i : Instr) : Prop := ∃ h ksz k, i = .setkey h ksz k ∧ ksz ≠ 16 ∧ ksz ≠ 32

/-- The commands R101 names: GENBLOCK, and PROCESS with LEN > 0. -/
def TakesKeystream (i : Instr) : Prop := (∃ h, i = .genblock h) ∨ ∃ h len din, i = .process h len din ∧ len ≠ 0

theorem ready_eq_false_iff (c : Slot) : ready c = false ↔ c.keyValid = false ∨ c.ivValid = false :=
  Bool.and_eq_false_iff

theorem effect_of_hasBadKeySize (consts : Constants) (c : Slot) {i : Instr} (hi : HasBadKeySize i) :
    effect consts c i = some ⟨.invalidKeySize, [], c⟩ := by
  obtain ⟨h, ksz, k, rfl, h16, h32⟩ := hi
  exact congrArg some (if_neg (not_or.2 ⟨h16, h32⟩))

theorem effect_code_of_not_hasBadKeySize {consts : Constants} {c : Slot} {i : Instr} {e : Effect}
    (hi : ¬ HasBadKeySize i) (he : effect consts c i = some e) : e.code = .ok := by
  cases i with
  | setkey h ksz k =>
    have hz : ksz = 16 ∨ ksz = 32 := by
      by_contra hz
      exact hi ⟨h, ksz, k, rfl, not_or.1 hz⟩
    obtain rfl := Option.some.inj he
    rw [if_pos hz]
  | setiv h n ctr => rw [eq_of_effect_setiv he]
  | process h len din => rw [eq_of_effect_process he]
  | genblock h => rw [eq_of_effect_genblock he]

/-- R101: without a key or an IV a slot has no effect of the commands that take keystream, and of every other it has. -/
theorem effect_eq_none_iff (consts : Constants) (c : Slot) (i : Instr) :
    effect consts c i = none ↔ TakesKeystream i ∧ ready c = false := by
  cases i with
  | setkey h ksz k => simp [effect, TakesKeystream]
  | setiv h n ctr => simp [effect, TakesKeystream]
  | process h len din => simp [effect, TakesKeystream]
  | genblock h => simp [effect, TakesKeystream]

/-! ### The codes a command completes with (R96, R97) -/

/-- R96, R97: the three ways a command completes, each with its cause, and the whole state after an error. -/
theorem exec_next_cases_status {i : Instr} {s t : State} (ht : exec i s = .next t) :
    (slotAt s i.handle = none ∧ t = complete .nullContext [] s) ∨
    (slotAt s i.handle ≠ none ∧ HasBadKeySize i ∧ t = complete .invalidKeySize [] s) ∨
    (slotAt s i.handle ≠ none ∧ ¬ HasBadKeySize i ∧ t.status = 0) := by
  rcases exec_next_cases ht with habsent | ⟨c, e, hc, he, rfl⟩
  · exact .inl habsent
  · have hpresent : slotAt s i.handle ≠ none := by simp [hc]
    by_cases hi : HasBadKeySize i
    · obtain rfl := Option.some.inj (he.symm.trans (effect_of_hasBadKeySize s.constants c hi))
      exact .inr (.inl ⟨hpresent, hi, by rw [Effect.state, setSlot_self hc]⟩)
    · have hcode := effect_code_of_not_hasBadKeySize hi he
      exact .inr (.inr ⟨hpresent, hi, (statusByte_eq_zero_iff e.code).2 hcode⟩)

/-- R97: after an error the state differs by STATUS and one response without data. -/
theorem eq_complete_of_exec_error {i : Instr} {s t : State} (ht : exec i s = .next t) (hstatus : t.status ≠ 0) :
    ∃ code, t = complete code [] s := by
  rcases exec_next_cases_status ht with ⟨-, rfl⟩ | ⟨-, -, rfl⟩ | ⟨-, -, hok⟩
  · exact ⟨_, rfl⟩
  · exact ⟨_, rfl⟩
  · exact absurd hok hstatus

/-- Settles O35: each way of completing has one code and one cause. -/
theorem statusCodesHaveTheirCauses : Obligations.StatusCodesHaveTheirCauses := by
  unfold Obligations.StatusCodesHaveTheirCauses
  intro i s t ht
  have hpresent : (1 ≤ i.handle.toNat ∧ i.handle.toNat ≤ s.nctx) ↔ slotAt s i.handle ≠ none := by
    rw [ne_eq, slotAt_eq_none_iff, not_not]
  rw [hpresent]
  show _ ∧ (_ ↔ _ ∧ HasBadKeySize i) ∧ _
  rcases exec_next_cases_status ht with ⟨hnone, rfl⟩ | ⟨hsome, hbad, rfl⟩ | ⟨hsome, hgood, hok⟩
  · simp [hnone, statusByte]
  · simp [hsome, hbad, statusByte]
  · simp [hsome, hgood, hok]

/-- Settles O36: the state after an error is a completion of the state before it, with no data. -/
theorem errorsChangeOnlyStatus : Obligations.ErrorsChangeOnlyStatus := by
  unfold Obligations.ErrorsChangeOnlyStatus
  intro i s t ht hstatus
  have herror : t.status ≠ 0 := by rcases hstatus with h | h <;> simp [h]
  obtain ⟨code, rfl⟩ := eq_complete_of_exec_error ht herror
  rfl

/-- Settles O38: SETIV has no other result on a present slot, and on a ready one no keystream command has. -/
theorem misuseIsNotAnError : Obligations.MisuseIsNotAnError := by
  unfold Obligations.MisuseIsNotAnError
  intro h s c hc
  refine ⟨fun n ctr hn => ⟨_, exec_setiv_ok hn hc, rfl⟩, fun hkey hiv => ?_⟩
  have hready : ready c = true := by simp [ready, hkey, hiv]
  exact ⟨exec_ok_of_ready (by simp [isKeystreamCommand]) hc hready,
    fun len din hd => exec_ok_of_ready (by simp [isKeystreamCommand, hd]) hc hready⟩

/-! ### What follows an error (R99) -/

/-- No command reads STATUS or the responses: in two states that have the constants and the slots in common a command that
completes leaves the same slots, STATUS and response. -/
theorem exec_next_transfer_slots {i : Instr} {s s' t : State} (hconsts : s'.constants = s.constants)
    (hslots : s'.slots = s.slots) (ht : exec i s = .next t) :
    ∃ t' r, exec i s' = .next t' ∧ t'.slots = t.slots ∧ t'.status = t.status ∧
      t.responses = s.responses ++ [r] ∧ t'.responses = s'.responses ++ [r] := by
  have hw := wellFormed_of_exec_next ht
  have hslot : slotAt s' i.handle = slotAt s i.handle := slotAt_congr hslots i.handle
  rcases exec_next_cases ht with ⟨hc, rfl⟩ | ⟨c, e, hc, he, rfl⟩
  · exact ⟨_, _, exec_absent hw (hslot.trans hc), hslots, rfl, rfl, rfl⟩
  · refine ⟨e.state i.handle s', _, ?_, ?_, rfl, rfl, rfl⟩
    · rw [exec_present hw (hslot.trans hc), hconsts, he, Effect.outcome]
    · simp [Effect.state, hslots]

/-- Settles O39: the failed command left the constants and the slots, which are all that the next one reads. -/
theorem errorsAreNotSticky : Obligations.ErrorsAreNotSticky := by
  unfold Obligations.ErrorsAreNotSticky
  intro i j s s' hs' hstatus
  obtain ⟨code, rfl⟩ := eq_complete_of_exec_error hs' hstatus
  have hslot : slotAt (complete code [] s) j.handle = slotAt s j.handle := slotAt_complete code [] s j.handle
  refine ⟨fun t ht => exec_next_transfer_slots rfl rfl ht,
    fun r => ⟨exec_fault_transfer rfl hslot.symm, exec_fault_transfer rfl hslot⟩,
    fun r => ⟨exec_refused_transfer _, exec_refused_transfer _⟩, fun hstop => ?_⟩
  cases ho : exec j (complete code [] s) with
  | next t => exact absurd ho (hstop t)
  | fault r => rfl
  | refused r => rfl

/-! ### Faults and the marks (R100 to R102) -/

theorem exec_fault_iff {i : Instr} {s : State} {r : Fault} (hw : i.wellFormed = true) :
    exec i s = .fault r ↔ r = .uninitializedState ∧ ∃ c, slotAt s i.handle = some c ∧ effect s.constants c i = none := by
  cases hc : slotAt s i.handle with
  | none => simp [exec_absent hw hc]
  | some c =>
    rw [exec_present hw hc]
    cases he : effect s.constants c i <;> simp [Effect.outcome, he, eq_comm]

/-- Settles O40: a command faults where it has no effect on its slot. -/
theorem onlyUninitializedSlotsFault : Obligations.OnlyUninitializedSlotsFault := by
  unfold Obligations.OnlyUninitializedSlotsFault
  intro i s hw
  refine ⟨?_, fun r hr => ((exec_fault_iff hw).1 hr).1⟩
  show _ ↔ _ ∧ TakesKeystream i
  constructor
  · rintro ⟨r, hr⟩
    obtain ⟨-, c, hc, he⟩ := (exec_fault_iff hw).1 hr
    obtain ⟨hi, hready⟩ := (effect_eq_none_iff s.constants c i).1 he
    exact ⟨⟨c, hc, (ready_eq_false_iff c).1 hready⟩, hi⟩
  · rintro ⟨⟨c, hc, hflags⟩, hi⟩
    have he := (effect_eq_none_iff s.constants c i).2 ⟨hi, (ready_eq_false_iff c).2 hflags⟩
    exact ⟨_, (exec_fault_iff hw).2 ⟨rfl, c, hc, he⟩⟩

/-- Settles O41: `advance` settles the stop that the step answers. -/
theorem stopsOnlySetTheirMark : Obligations.StopsOnlySetTheirMark := by
  unfold Obligations.StopsOnlySetTheirMark
  constructor
  · intro s r hr
    simp [advance, hr]
  · intro s r hr
    simp [advance, hr]

/-! ### The order of the checks (R103) -/

theorem encode_cw_op (i : Instr) : (encode i).cw.toNat % 16 = i.opcode.toNat := by
  rw [← opField_toNat, encode_cw, opField_wordOfFields]

theorem encode_cw_ctx (i : Instr) : (encode i).cw.toNat / 16 % 16 = i.handle.toNat := by
  rw [← ctxField_toNat, encode_cw, ctxField_wordOfFields]

/-- R61: a word is reserved when RSVD is not 0 or OP is not one of 1 to 4. -/
theorem decode_eq_reserved_iff_toNat (t : Transaction) :
    decode t = .error .reservedEncoding ↔
      t.cw.toNat / 2 ^ 8 ≠ 0 ∨ t.cw.toNat % 16 = 0 ∨ 5 ≤ t.cw.toNat % 16 := by
  have hop : (opField t.cw = 0x1 ∨ opField t.cw = 0x2 ∨ opField t.cw = 0x3 ∨ opField t.cw = 0x4) ↔
      (t.cw.toNat % 16 = 1 ∨ t.cw.toNat % 16 = 2 ∨ t.cw.toNat % 16 = 3 ∨ t.cw.toNat % 16 = 4) := by
    simp [opField_eq_iff]
  rw [decode_eq_reserved_iff t.cw t.operands, rsvdField_eq_zero_iff, hop]
  omega

/-- R103 item 3: what is not reserved and not well formed is refused as malformed, by the decoder or by the command. -/
theorem step_malformed {s : State} {t : Transaction} {rest : List PortEvent} (hp : s.port = .command t :: rest)
    (hgood : s.Good) (hd : decode t ≠ .error .reservedEncoding) (hw : transactionWellFormed t = false) :
    step s = .refused .malformedTransaction := by
  cases hdt : decode t with
  | error e =>
    rw [step_undecoded hp hgood.1 hgood.2 hdt]
    cases e with
    | reservedEncoding => exact absurd hdt hd
    | malformedTransaction => rfl
  | ok i =>
    obtain rfl := decode_eq_ok_iff.1 hdt
    rw [step_decoded hp hgood.1 hgood.2 hdt, exec_malformed ((transactionWellFormed_encode i).symm.trans hw)]

/-- R89, R103 items 6 and 7: the well-formed commands that take keystream are GENBLOCK and PROCESS, but for a PROCESS of no
bytes. -/
theorem takesKeystream_iff {i : Instr} (hw : i.wellFormed = true) :
    TakesKeystream i ↔ (i.opcode.toNat = 3 ∨ i.opcode.toNat = 4) ∧
      ¬ (i.opcode.toNat = 3 ∧ (encode i).operands = .dataBlock 0 []) := by
  cases i with
  | setkey h ksz k => simp [TakesKeystream, Instr.opcode]
  | setiv h n ctr => simp [TakesKeystream, Instr.opcode]
  | process h len din =>
    have hd : din.length = len.toNat := beq_iff_eq.1 hw
    have hempty (hz : len = 0) : din = [] := List.eq_nil_of_length_eq_zero (by simp [hd, hz])
    have hnonempty : len ≠ 0 ↔ (len = 0 → din ≠ []) := ⟨fun h hz => absurd hz h, fun h hz => h hz (hempty hz)⟩
    simpa [TakesKeystream, Instr.opcode, encode] using hnonempty
  | genblock h => simp [TakesKeystream, Instr.opcode]

theorem eq_process_empty {i : Instr} (hi : (encode i).operands = .dataBlock 0 []) : i = .process i.handle 0 [] := by
  cases i with
  | setkey h ksz k => cases hi
  | setiv h n ctr => cases hi
  | process h len din =>
    obtain ⟨rfl, rfl⟩ : len = 0 ∧ din = [] := by simpa [encode] using hi
    rfl
  | genblock h => cases hi

theorem not_flags_iff_not_ready (c : Slot) : (!c.keyValid || !c.ivValid) = true ↔ ready c = false := by
  simp [ready_eq_false_iff]

/-- R103 item 5: the completion of a SETKEY with a bad size on a present slot. -/
theorem exec_of_hasBadKeySize {i : Instr} {s : State} {c : Slot} (hw : i.wellFormed = true)
    (hc : slotAt s i.handle = some c) (hi : HasBadKeySize i) : exec i s = .next (complete .invalidKeySize [] s) := by
  rw [exec_present hw hc, effect_of_hasBadKeySize s.constants c hi, Effect.outcome, Effect.state, setSlot_self hc]

/-- R103 item 8: a well-formed command on a present slot that none of the checks stops returns OK. -/
theorem exec_ok_of_checks {i : Instr} {s : State} {c : Slot} (hw : i.wellFormed = true)
    (hc : slotAt s i.handle = some c) (hi : ¬ HasBadKeySize i) (hready : ¬ (TakesKeystream i ∧ ready c = false)) :
    ∃ t, exec i s = .next t ∧ t.status = 0 := by
  obtain ⟨e, he⟩ := Option.ne_none_iff_exists'.1 (mt (effect_eq_none_iff s.constants c i).1 hready)
  refine ⟨e.state i.handle s, ?_, ?_⟩
  · rw [exec_present hw hc, he, Effect.outcome]
  · exact (statusByte_eq_zero_iff e.code).2 (effect_code_of_not_hasBadKeySize hi he)

/-- Settles O43: the checks of the command word and of the shape on the transaction, and the others on the command it
stands for, in the order of R103. -/
theorem checksRunInTheirOrder : Obligations.ChecksRunInTheirOrder := by
  unfold Obligations.ChecksRunInTheirOrder
  intro s t rest hp
  split
  next hmark => exact (advance_of_mark hp hmark).1
  next hunmarked =>
  have hgood : s.Good := not_not.1 hunmarked
  split
  next hreserved => exact step_undecoded hp hgood.1 hgood.2 ((decode_eq_reserved_iff_toNat t).2 hreserved)
  next hrow =>
  split
  next hshape => exact step_malformed hp hgood (mt (decode_eq_reserved_iff_toNat t).1 hrow) hshape
  next hshape =>
  have hwellFormed : transactionWellFormed t = true := Bool.eq_true_of_not_eq_false hshape
  obtain ⟨i, rfl⟩ := exists_encode_of_transactionWellFormed hwellFormed
  have hw : i.wellFormed = true := (transactionWellFormed_encode i).symm.trans hwellFormed
  rw [step_decoded hp hgood.1 hgood.2 (decode_encode i), encode_cw_op, encode_cw_ctx]
  split
  next habsent => exact ⟨_, exec_absent hw ((slotAt_eq_none_iff s i.handle).2 habsent), rfl⟩
  next hpresent =>
  obtain ⟨hlt, hslot⟩ := slotAt_of_present (not_not.1 hpresent)
  have hc : slotAt { s with port := rest } i.handle = some s.slots[i.handle.toNat - 1] := hslot
  simp only [List.getElem?_eq_getElem hlt]
  generalize s.slots[i.handle.toNat - 1] = c at hc ⊢
  split_ifs with hsize hempty hunready
  · have hi : HasBadKeySize i := by
      cases i with
      | setkey h ksz k => simpa [HasBadKeySize, encode] using hsize
      | setiv h n ctr => cases hsize
      | process h len din => cases hsize
      | genblock h => cases hsize
    exact ⟨_, exec_of_hasBadKeySize hw hc hi, rfl⟩
  · rw [eq_process_empty hempty.2] at hc ⊢
    exact ⟨_, exec_process_empty hc, rfl, rfl⟩
  · have hi : TakesKeystream i := (takesKeystream_iff hw).2 ⟨hunready.1, hempty⟩
    have hready : ready c = false := (not_flags_iff_not_ready c).1 hunready.2
    exact (exec_fault_iff hw).2 ⟨rfl, c, hc, (effect_eq_none_iff s.constants c i).2 ⟨hi, hready⟩⟩
  · have hi : ¬ HasBadKeySize i := by
      rintro ⟨h, ksz, k, rfl, h16, h32⟩
      exact hsize (by simpa [encode] using And.intro h16 h32)
    refine exec_ok_of_checks hw hc hi fun ⟨htakes, hready⟩ => hunready ⟨?_, (not_flags_iff_not_ready c).2 hready⟩
    exact ((takesKeystream_iff hw).1 htakes).1

end Sys2Proof.Machine
end

-- Proofs: the reset input and consecutive PROCESS commands (R115, R118, R119)
section
/-! PROOFS. What the reset input leaves, and what a run of PROCESS commands on one slot answers: each piece takes keystream
from a block boundary on, so pieces that end on one continue the keystream and a piece that ends mid-block does not. -/

namespace Sys2Proof.Machine

open Host (Outcome)

/-! ### The reset input (R115) -/

/-- Settles O5: every slot the reset input leaves is the reset slot, whose flags cover no word. -/
theorem resetInputClearsEverySlot : Obligations.ResetInputClearsEverySlot := by
  unfold Obligations.ResetInputClearsEverySlot
  intro s rest hp
  refine ⟨_, step_reset hp, advance_reset hp, applyReset_nctx _, rfl, ?_, rfl, rfl, rfl, rfl, rfl⟩
  intro c hc
  obtain rfl := List.eq_of_mem_replicate hc
  exact ⟨rfl, rfl, observedWord_reset⟩

/-! ### Runs on one slot (R22) -/

/-- R22: a run of commands on `h` changes no slot but that of `h`, so the slots before and after it agree once that one is
overwritten. Stated of the list of slots, which may be longer than the handles reach. -/
theorem runCommands_setSlot_slots {h : Handle} {is : List Instr} {s t : State} (c : Slot) (his : ∀ i ∈ is, i.handle = h)
    (ht : runCommands is s = .next t) : (setSlot h c t).slots = (setSlot h c s).slots := by
  induction is generalizing s with
  | nil => rw [Outcome.next.inj ht]
  | cons i is ih =>
    obtain ⟨rfl, his⟩ := List.forall_mem_cons.1 his
    cases hu : exec i s with
    | fault r => simp [runCommands, hu] at ht
    | refused r => simp [runCommands, hu] at ht
    | next u =>
      rw [runCommands_cons_next hu] at ht
      rw [ih his ht]
      rcases exec_next_cases hu with ⟨-, rfl⟩ | ⟨_, e, -, -, rfl⟩
      · rfl
      · simp [Effect.state]

/-- A run on `h` that leaves `c` in its slot leaves the slots as writing `c` there does. -/
theorem slots_of_runCommands {h : Handle} {is : List Instr} {s t : State} {c : Slot} (his : ∀ i ∈ is, i.handle = h)
    (ht : runCommands is s = .next t) (hc : slotAt t h = some c) : t.slots = (setSlot h c s).slots := by
  rw [← runCommands_setSlot_slots c his ht, setSlot_self hc]

/-! ### The responses of PROCESS commands (R118, R119) -/

/-- The PROCESS command on `h` whose input is `p`, well formed when `p` is shorter than 2^32 bytes. -/
def processOf (h : Handle) (p : List Byte) : Instr := .process h (BitVec.ofNat 32 p.length) p

theorem isKeystreamCommand_processOf (h : Handle) {p : List Byte} (hp : p.length < 2 ^ 32) :
    isKeystreamCommand h (processOf h p) = true := by
  have hlen : p.length = (BitVec.ofNat 32 p.length).toNat := by rw [BitVec.toNat_ofNat, Nat.mod_eq_of_lt hp]
  exact Bool.and_eq_true_iff.2 ⟨beq_self_eq_true h, beq_iff_eq.2 hlen⟩

/-- R63, R119: every response of a run of keystream commands has status OK. -/
theorem keystreamResponses_eq_map_dout (c : Slot) (is : List Instr) :
    keystreamResponses c is = ((keystreamResponses c is).map Response.dout).map fun d => ⟨0, d⟩ := by
  induction is generalizing c with
  | nil => rfl
  | cons i is ih => exact congrArg (List.cons _) (ih _)

/-- R91: a piece of whole blocks leaves no byte of its last block over. -/
theorem length_eq_of_aligned {p : List Byte} (hp : p.length % 64 = 0) : p.length = 64 * blocksOf p := by
  unfold blocksOf
  omega

theorem blocksOf_append {p : List Byte} (hp : p.length % 64 = 0) (q : List Byte) :
    blocksOf (p ++ q) = blocksOf p + blocksOf q := by
  simp only [blocksOf, List.length_append]
  omega

/-- R91: aligned pieces and a last one use together the blocks of the whole. -/
theorem blocksUsed_pieces {pieces : List (List Byte)} (hpieces : ∀ p ∈ pieces, p.length % 64 = 0) (last : List Byte)
    (h : Handle) : blocksUsed ((pieces ++ [last]).map (processOf h)) = blocksOf (pieces.flatten ++ last) := by
  induction pieces with
  | nil => rfl
  | cons p ps ih =>
    obtain ⟨hp, hps⟩ := List.forall_mem_cons.1 hpieces
    rw [List.flatten_cons, List.append_assoc, blocksOf_append hp, ← ih hps]
    rfl

/-- R119: each aligned piece ends where the next one starts, so the outputs are that of the whole, cut in pieces. -/
theorem flatten_dout_pieces {pieces : List (List Byte)} (hpieces : ∀ p ∈ pieces, p.length % 64 = 0) (last : List Byte)
    (h : Handle) (c : Slot) :
    ((keystreamResponses c ((pieces ++ [last]).map (processOf h))).map Response.dout).flatten =
      keystreamXor c (pieces.flatten ++ last) := by
  induction pieces generalizing c with
  | nil => exact List.append_nil _
  | cons p ps ih =>
    obtain ⟨hp, hps⟩ := List.forall_mem_cons.1 hpieces
    rw [List.flatten_cons, List.append_assoc, keystreamXor_append c (length_eq_of_aligned hp), ← ih hps]
    rfl

theorem isKeystreamCommand_of_mem_pieces {h : Handle} {ps : List (List Byte)} (hps : ps.flatten.length < 2 ^ 32) :
    ∀ i ∈ ps.map (processOf h), isKeystreamCommand h i = true := by
  intro i hi
  obtain ⟨p, hp, rfl⟩ := List.mem_map.1 hi
  exact isKeystreamCommand_processOf h ((List.sublist_flatten_of_mem hp).length_le.trans_lt hps)

/-- Settles O50: the run of O27 on the pieces, whose outputs, blocks and slots are those of the one PROCESS. -/
theorem alignedPiecesContinueTheKeystream : Obligations.AlignedPiecesContinueTheKeystream := by
  unfold Obligations.AlignedPiecesContinueTheKeystream
  intro h c pieces last s hc hkey hiv hpieces hlen
  have his : ∀ i ∈ (pieces ++ [last]).map (processOf h), isKeystreamCommand h i = true :=
    isKeystreamCommand_of_mem_pieces (by simpa using hlen)
  obtain ⟨t, ht, hslot, hresponses, -⟩ := keystreamRunsFollowTheCounter h c _ s hc hkey hiv his
  have hwhole := exec_keystream_ready (isKeystreamCommand_processOf h hlen) hc hkey hiv
  refine ⟨t, _, _, ht, hwhole, hresponses.trans (congrArg _ (keystreamResponses_eq_map_dout c _)), ?_, ?_⟩
  · rw [flatten_dout_pieces hpieces]
    rfl
  · rw [slots_of_runCommands (fun i hi => isKeystreamCommand_handle (his i hi)) ht hslot, blocksUsed_pieces hpieces]
    rfl

/-- Settles O51: the run of O27 on two commands, the second of which starts `blocksOf a` blocks further on. -/
theorem midBlockEndSkipsToTheNextBlock : Obligations.MidBlockEndSkipsToTheNextBlock := by
  unfold Obligations.MidBlockEndSkipsToTheNextBlock
  intro h c a b s hc hkey hiv ha hb
  have his : ∀ i ∈ [processOf h a, processOf h b], isKeystreamCommand h i = true := by
    simp [isKeystreamCommand_processOf h ha, isKeystreamCommand_processOf h hb]
  obtain ⟨t, ht, -, hresponses, -⟩ := keystreamRunsFollowTheCounter h c _ s hc hkey hiv his
  refine ⟨t, keystreamXor c a, keystreamXor (slotAfter (blocksOf a) c) b, ht, hresponses, keystreamXor_length c a,
    keystreamXor_length _ b, fun i hi => keystreamXor_getD c hi, fun i hi => ?_⟩
  rw [keystreamXor_getD _ hi, keystreamByte_slotAfter, Nat.add_comm, blocksOf]

end Sys2Proof.Machine
end
